-- ==== Sys2Proof/Word.lean ====
section
/-! DEFINITION. The words of the block (rule R8, rule R11): an 8-bit byte, a 32-bit word, a byte string in index order. -/

namespace Sys2Proof

/-- A byte is 8 bits (rule R8): one element of a buffer, one output character. -/
abbrev Byte := BitVec 8

/-- A word is 32 bits (rule R8): a bus word, a command word, a hash working value. -/
abbrev Word := BitVec 32

/-- A byte string, index 0 first (rule R9). -/
abbrev Bytes := List Byte

end Sys2Proof
end

