-- ==== Sys2Proof/Syntax.lean ====
section
/-! DEFINITION. The commands of the block: the twelve rows of the opcode map, rule R91 (spec/opcode_table.json). -/

namespace Sys2Proof

/-- One constructor per command. No command has an explicit operand (rule R92), so no constructor has an argument. -/
inductive Instr
  /-- 0x00: completes and changes nothing else (rule R220). -/
  | nop
  /-- 0x01: SHA-256 of IN (rule R128). -/
  | sha256
  /-- 0x02: RIPEMD-160 of IN (rule R138). -/
  | rmd160
  /-- 0x03: RIPEMD-160 of SHA-256 of IN (rule R161). -/
  | hash160
  /-- 0x04: SHA-256 of SHA-256 of IN (rule R171). -/
  | dsha256
  /-- 0x05: the first four bytes of DSHA256 (rule R173). -/
  | chksum
  /-- 0x06: the 26-byte SIN value of a 20-byte digest (rule R176). -/
  | sinasm
  /-- 0x07: base58 text of IN read as an integer (rule R194). -/
  | b58enc
  /-- 0x08: the 33-byte compressed key of a 64-byte public key (rule R151). -/
  | kcomp
  /-- 0x09: the SIN text of IN (rule R211). -/
  | sin
  /-- 0x0A: the SIN text of a 64-byte public key (rule R214). -/
  | sinpk
  /-- 0x0B: OBUF[0..OLEN) moved to IBUF, OLEN to ILEN (rule R222). -/
  | xfer
deriving DecidableEq, Repr

end Sys2Proof
end

