-- ==== Sys2Proof/WellFormed.lean ====
section
/-! DEFINITION. What is well formed. A command carries no operand (rule R92), so every term of `Instr` is well formed; what
can be ill formed is the 32-bit command word (rules R90, R94). The well-formedness of a host script (rule R112) depends on
the state it runs from and stands in Machine/Script.lean. -/

namespace Sys2Proof

/-- Every command is well formed: no register, immediate, mode or function field exists to be out of range (rules R90, R92). -/
def Instr.wellFormed : Instr → Bool
  | .nop | .sha256 | .rmd160 | .hash160 | .dsha256 | .chksum => true
  | .sinasm | .b58enc | .kcomp | .sin | .sinpk | .xfer => true

/-- Field OPCODE, bits 7:0 (rule R90). -/
def opcodeField (w : Word) : BitVec 8 := w.extractLsb' 0 8

/-- Field ZERO, bits 31:8 (rule R90). -/
def zeroField (w : Word) : BitVec 24 := w.extractLsb' 8 24

/-- A command word is legal when it is not illegal by rule R94: `w[31:8] = 0` and `w[7:0] < 0x0C`. -/
def commandWordLegal (w : Word) : Bool := zeroField w == 0 && decide ((opcodeField w).toNat < 0x0C)

end Sys2Proof
end

