-- ==== Sys2Proof/Decode.lean ====
section
/-! DEFINITION. The decoder of command words (rules R90, R91, R94, R95), total on every 32-bit word, and the encoder. There is
one format and one length, one word (rules R90, R96). -/

namespace Sys2Proof

/-- Why a word is illegal (rule R94). Both kinds make `Complete` raise IllegalCommand (rule R231). -/
inductive DecodeReject
  /-- Field ZERO, bits 31:8, is not zero. -/
  | zeroFieldNotZero
  /-- Field OPCODE is 0x0C to 0xFF. -/
  | reservedOpcode
deriving DecidableEq, Repr

/-- The opcode map, rule R91; 0x0C to 0xFF are reserved. -/
def commandOfOpcode (op : BitVec 8) : Option Instr :=
  match op.toNat with
  | 0x00 => some .nop
  | 0x01 => some .sha256
  | 0x02 => some .rmd160
  | 0x03 => some .hash160
  | 0x04 => some .dsha256
  | 0x05 => some .chksum
  | 0x06 => some .sinasm
  | 0x07 => some .b58enc
  | 0x08 => some .kcomp
  | 0x09 => some .sin
  | 0x0A => some .sinpk
  | 0x0B => some .xfer
  | _ => none

/-- Decode one command word. It depends on the word alone, never on a mode bit or on state (rule R95). -/
def decode (w : Word) : Except DecodeReject Instr :=
  if zeroField w = 0 then
    match commandOfOpcode (opcodeField w) with
    | some i => .ok i
    | none => .error .reservedOpcode
  else .error .zeroFieldNotZero

/-- The command word of a command, the second column of rule R91's table. -/
def encode : Instr → Word
  | .nop => 0x00000000
  | .sha256 => 0x00000001
  | .rmd160 => 0x00000002
  | .hash160 => 0x00000003
  | .dsha256 => 0x00000004
  | .chksum => 0x00000005
  | .sinasm => 0x00000006
  | .b58enc => 0x00000007
  | .kcomp => 0x00000008
  | .sin => 0x00000009
  | .sinpk => 0x0000000A
  | .xfer => 0x0000000B

/-- The command word of `nbits` table bits `w`: bit 0 is the least significant bit, every bit from `nbits` up is 0. A command
is one 32-bit bus word, so no byte order enters (rule R90). -/
def tableWord (nbits w : Nat) : Word := BitVec.ofNat 32 (w % 2 ^ nbits)

/-- The command the decoder reads from a row of spec/opcode_table.json; a row longer than one word is no command (rule R96). -/
def decodeTableWord (nbits w : Nat) : Option Instr :=
  if 32 < nbits then none
  else
    match decode (tableWord nbits w) with
    | .ok i => some i
    | .error _ => none

end Sys2Proof
end

