-- ==== Sys2Proof/Config.lean ====
section
/-! DEFINITION. The implementation parameters of rule R6. None is a free value: rule R14 leaves nothing open but the time
between accept and complete (the agenda of `Machine.State`, log entry 1) and BASE (an argument, log entry 4). -/

namespace Sys2Proof.Config

/-- `IBUF_BYTES` (rule R6, decision D4). -/
abbrev ibufBytes : Nat := 64

/-- `OBUF_BYTES` (rule R6, decision D4): 58^87 < 2^512 <= 58^88. -/
abbrev obufBytes : Nat := 88

/-- `WINDOW_BYTES` (rule R6, decision D6). -/
abbrev windowBytes : Nat := 256

/-- The digest length SINASM requires (rule R101). -/
abbrev digestBytes : Nat := 20

/-- The public-key length KCOMP and SINPK require (rule R101). -/
abbrev keyBytes : Nat := 64

end Sys2Proof.Config
end

