-- ==== Sys2Proof/Machine/State.lean ====
section
/-! DEFINITION. The state of the block (rule R20, whole), and beside it the two things that stand for the world around the
block in a machine of one deterministic step: the agenda of turns to come (log entry 1) and the last answer given on the
bus (log entry 2). -/

namespace Sys2Proof.Machine

/-- The size of a bus access (rule R64): only `word` is accepted (log entry 10). -/
inductive AccessSize
  /-- 8 bits. -/
  | byte
  /-- 16 bits. -/
  | half
  /-- 32 bits, the one size the window accepts. -/
  | word
  /-- 64 bits. -/
  | double
  /-- A burst, of any length. -/
  | burst
deriving DecidableEq, Repr

/-- The steps of the host (rules R12, R60, R260). `off` is the byte offset from BASE, so it is within the 256-byte window
(log entry 4). The data of a write of another size than 32 bits reaches nothing (rule R64), so `w` is not read then. -/
inductive HostAction
  /-- `BusRead(off)`, or a read of another size. -/
  | busRead (size : AccessSize) (off : BitVec 8)
  /-- `BusWrite(off, w)`, or a write of another size. -/
  | busWrite (size : AccessSize) (off : BitVec 8) (w : Word)
  /-- The step `HardReset`. -/
  | hardReset
deriving DecidableEq, Repr

/-- Whose turn it is in the one total order of steps (rules R12, R70). -/
inductive Turn
  /-- The host takes this step. -/
  | host (a : HostAction)
  /-- The engine takes its step, if it has one (rule R40). -/
  | engine
deriving DecidableEq, Repr

/-- The block's answer to one bus access (rules R10, R64). -/
inductive BusReply
  /-- An accepted read returns a word. -/
  | data (w : Word)
  /-- An accepted write, also one that is ignored or dropped, is answered `Okay`. -/
  | okay
  /-- A refused access is answered `BusError`; it sets no flag (rule R242). -/
  | busError
deriving DecidableEq, Repr

/-- The registers of the window (rule R61). -/
inductive Reg
  /-- 0x000, read-only. -/
  | id
  /-- 0x004, read-only. -/
  | cap
  /-- 0x008. -/
  | ctrl
  /-- 0x00C. -/
  | status
  /-- 0x010. -/
  | cmd
  /-- 0x014. -/
  | ilen
  /-- 0x018, read-only. -/
  | olen
  /-- 0x040 + 4j. -/
  | ibuf (j : Fin 16)
  /-- 0x080 + 4j, read-only. -/
  | obuf (j : Fin 22)
  /-- 0x01C to 0x03C and 0x0D8 to 0x0FC: reads as zero, writes ignored. -/
  | reserved
deriving DecidableEq, Repr

/-- The error names of rule R230. A failed completion takes a NEXT state (rule R236); none of these stops the machine. -/
inductive CmdError
  /-- Code 1, never raised (rule R234). -/
  | entropyUnavailable
  /-- Code 2 (rule R232). -/
  | invalidKeyLength
  /-- Code 3, never raised (rules R139, R234). -/
  | hashBackendFailure
  /-- Code 4, never raised (rule R234). -/
  | malformedHexInput
  /-- Code 5 (rule R231). -/
  | illegalCommand
  /-- Code 6 (rule R233). -/
  | invalidLength
deriving DecidableEq, Repr

/-- The state. The twelve fields from `ibuf` to `eie` are the tuple of rule R20, which says that nothing else exists in the
block; `irq` is a function of them (rule R45). The engine's working storage is not represented (rule R44). The two
buffers are vectors, since the block has no memory beyond them (log entry 5). -/
structure State where
  /-- `IBUF`: the input bytes of the next command. -/
  ibuf : Vector Byte 64
  /-- `ILEN`: the number of significant bytes of IBUF, 0 to 255. -/
  ilen : BitVec 8
  /-- `OBUF`: the output bytes of the last completed command. -/
  obuf : Vector Byte 88
  /-- `OLEN`: the number of significant bytes of OBUF. -/
  olen : BitVec 8
  /-- `CMDW`: the last accepted command word. -/
  cmdw : Word
  /-- `BUSY`: a command has been accepted and has not completed. -/
  busy : Bool
  /-- `DONE`: the last command completed without error, not acknowledged or superseded. -/
  done : Bool
  /-- `ERR`: the last command completed with an error that has not been acknowledged. -/
  err : Bool
  /-- `ECODE`: the error code that goes with ERR. -/
  ecode : BitVec 4
  /-- `DROP`: a write was dropped since this bit was last cleared. -/
  drop : Bool
  /-- `DIE`: interrupt enable for DONE. -/
  die : Bool
  /-- `EIE`: interrupt enable for ERR. -/
  eie : Bool
  /-- The MODEL's own field, no part of the block: the turns still to come, in order (DESIGN CHOICE, log entry 1). -/
  agenda : List Turn
  /-- The MODEL's own field, no part of the block: the answer to the latest bus access (DESIGN CHOICE, log entry 2). -/
  reply : Option BusReply
deriving DecidableEq, Repr

/-- The reasons the machine can stop: there are none. Every access is answered and every command completes (rules R14, R40;
spec/93: nothing in the block is stuck). Nobody raises a fault, which is safe: no behaviour is cut off
(DEDUCED, log entry 13). -/
inductive Fault
deriving DecidableEq, Repr

/-- The reasons the model can refuse a command. -/
inductive Refusal
  /-- No meaning written yet for this command. No arm of `exec` raises it: all twelve have their meaning. Safe. -/
  | notModelled (mnemonic : String)
deriving DecidableEq, Repr

/-- The three outcomes of a step of this machine; only `next` occurs. -/
abbrev Result := Host.Outcome State Fault Refusal

/-- The state after hardware reset, and after soft reset: rule R47, which leaves nothing unspecified. The two fields of the
model's own: no turn to come, no access answered yet (DESIGN CHOICE, log entries 1 and 2). -/
def State.reset : State where
  ibuf := Vector.replicate 64 0
  ilen := 0
  obuf := Vector.replicate 88 0
  olen := 0
  cmdw := 0
  busy := false
  done := false
  err := false
  ecode := 0
  drop := false
  die := false
  eie := false
  agenda := []
  reply := none

end Sys2Proof.Machine
end

