-- ==== Sys2Proof/Machine/Operands.lean ====
section
/-! DEFINITION. Operand strings, byte orders, bus lanes and the address map of the window (rules R9, R21, R60 to R64, R92). -/

namespace Sys2Proof.Machine

/-- `IN = IBUF[0..ILEN)`, the input string of every command but NOP and XFER (rule R92). -/
def inBytes (s : State) : Bytes := s.ibuf.toList.take s.ilen.toNat

/-- `OBUF[0..OLEN)`, the stored values, the source string of XFER (rules R43, R92, R222). -/
def outBytes (s : State) : Bytes := s.obuf.toList.take s.olen.toNat

/-- A buffer of `n` bytes that holds `b` from index 0 and zero above it (rules R41, R222). -/
def padTo (n : Nat) (b : Bytes) : Vector Byte n := Vector.ofFn fun i => b.getD i.val 0

/-- `be(b)`: a byte string read as one big-endian natural number, `be(empty) = 0` (rule R9). -/
def be (b : Bytes) : Nat := b.foldl (fun v x => 256 * v + x.toNat) 0

/-- Four bytes as a word, the first most significant. -/
def wordOfBytes (b0 b1 b2 b3 : Byte) : Word := b0 ++ b1 ++ b2 ++ b3

/-- Word `t` of a block, big-endian (rule R123). -/
def beWord (b : Bytes) (t : Nat) : Word :=
  wordOfBytes (b.getD (4 * t) 0) (b.getD (4 * t + 1) 0) (b.getD (4 * t + 2) 0) (b.getD (4 * t + 3) 0)

/-- Word `t` of a block, little-endian (rule R134). -/
def leWord (b : Bytes) (t : Nat) : Word :=
  wordOfBytes (b.getD (4 * t + 3) 0) (b.getD (4 * t + 2) 0) (b.getD (4 * t + 1) 0) (b.getD (4 * t) 0)

/-- Byte `k` of a word, bits `8k+7:8k`. -/
def wordByte (w : Word) (k : Nat) : Byte := w.extractLsb' (8 * k) 8

/-- `be32(x)`, the 4-byte big-endian form (rule R125). -/
def be32 (x : Word) : Bytes := [wordByte x 3, wordByte x 2, wordByte x 1, wordByte x 0]

/-- `le32(x)`, the 4-byte little-endian form (rule R136). -/
def le32 (x : Word) : Bytes := [wordByte x 0, wordByte x 1, wordByte x 2, wordByte x 3]

/-- `le64(n)`, the 8-byte little-endian form (rule R131). Numbers of 2^64 and above lose their high part; the hash functions
are defined below 2^61 bytes only (log entry 8). -/
def le64 (n : Nat) : Bytes := (List.range 8).map fun i => BitVec.ofNat 8 (n / 256 ^ i)

/-- `be64(n)`, the 8-byte big-endian form (rule R121). -/
def be64 (n : Nat) : Bytes := (le64 n).reverse

/-- Bus word `j` of a buffer: byte `4j+i` in bits `8i+7:8i` (rules R32, R33, R62). -/
def readLanes {n : Nat} (v : Vector Byte n) (j : Nat) : Word := leWord v.toList j

/-- A buffer after a bus write of word `j`: byte `4j+i` takes bits `8i+7:8i` of `w` (rule R32). -/
def writeLanes {n : Nat} (v : Vector Byte n) (j : Nat) (w : Word) : Vector Byte n :=
  Vector.ofFn fun i => if i.val / 4 = j then wordByte w (i.val % 4) else v[i.val]

/-- The register at an aligned offset: the address map, complete (rules R34, R61). -/
def regAt (off : BitVec 8) : Reg :=
  if off.toNat = 0x00 then .id
  else if off.toNat = 0x04 then .cap
  else if off.toNat = 0x08 then .ctrl
  else if off.toNat = 0x0C then .status
  else if off.toNat = 0x10 then .cmd
  else if off.toNat = 0x14 then .ilen
  else if off.toNat = 0x18 then .olen
  else if h : 0x40 ≤ off.toNat ∧ off.toNat < 0x80 then .ibuf ⟨(off.toNat - 0x40) / 4, by omega⟩
  else if h : 0x80 ≤ off.toNat ∧ off.toNat < 0xD8 then .obuf ⟨(off.toNat - 0x80) / 4, by omega⟩
  else .reserved

/-- The offset of a register (rule R61). `reserved` names nineteen words; its first offset is given. -/
def Reg.offset : Reg → BitVec 8
  | .id => 0x00
  | .cap => 0x04
  | .ctrl => 0x08
  | .status => 0x0C
  | .cmd => 0x10
  | .ilen => 0x14
  | .olen => 0x18
  | .ibuf j => BitVec.ofNat 8 (0x40 + 4 * j.val)
  | .obuf j => BitVec.ofNat 8 (0x80 + 4 * j.val)
  | .reserved => 0x1C

/-- An access the window accepts: 32 bits at a multiple of 4 (rule R64). -/
def accepted (size : AccessSize) (off : BitVec 8) : Bool := size == .word && off.toNat % 4 == 0

/-- The offset a byte address of the host's bus has in a window at `base`, if it lies in it (rule R60); `base`, a multiple of
256, is the parameter BASE, taken as an argument (decision D6, log entry 4). -/
def windowOffset (base addr : Nat) : Option (BitVec 8) :=
  if base ≤ addr ∧ addr < base + Config.windowBytes then some (BitVec.ofNat 8 (addr - base)) else none

end Sys2Proof.Machine
end

