-- ==== Sys2Proof/Machine/Flags.lean ====
section
/-! DEFINITION. Flags, error codes, the words the status and control registers read as, the interrupt line (rules R24 to R28,
R45, R230). -/

namespace Sys2Proof.Machine

/-- The numbers of rule R230. -/
def CmdError.code : CmdError → BitVec 4
  | .entropyUnavailable => 1
  | .invalidKeyLength => 2
  | .hashBackendFailure => 3
  | .malformedHexInput => 4
  | .illegalCommand => 5
  | .invalidLength => 6

/-- `ID_VALUE`, what register ID reads (rule R25). -/
def idValue : Word := 0x48313630

/-- `CAP_VALUE`, what register CAP reads (rule R26). -/
def capValue : Word := 0x010B5840

/-- What register STATUS reads: BUSY, DONE, ERR, DROP in bits 0 to 3, ECODE in bits 11:8 (rule R28). -/
def statusWord (s : State) : Word :=
  0#20 ++ s.ecode ++ 0#4 ++ BitVec.ofBool s.drop ++ BitVec.ofBool s.err ++ BitVec.ofBool s.done ++ BitVec.ofBool s.busy

/-- What register CTRL reads: DIE in bit 0, EIE in bit 1 (rule R27). -/
def ctrlWord (s : State) : Word := 0#30 ++ BitVec.ofBool s.eie ++ BitVec.ofBool s.die

/-- The interrupt output, a level (rules R45, R237). -/
def irq (s : State) : Bool := (s.done && s.die) || (s.err && s.eie)

end Sys2Proof.Machine
end

