-- ==== Sys2Proof/Machine/Ops.lean ====
section
/-! DEFINITION. The shared operations: the commits of the engine, taking a command error and acknowledging it, accept and drop,
the reset, and what one bus access reads and does (rules R27 to R43, R64 to R66, R236, R240, R260, R262). -/

namespace Sys2Proof.Machine

/-! ## Commits of the `Complete` step -/

/-- `commit_ok(s)`, rule R41. A string longer than 88 bytes would be cut; no command has one (rule R197, log entry 7). -/
def commitOk (out : Bytes) (s : State) : State :=
  { s with obuf := padTo 88 out, olen := BitVec.ofNat 8 out.length, busy := false, done := true }

/-- `commit_keep()`, rule R42. -/
def commitKeep (s : State) : State := { s with busy := false, done := true }

/-- `raise <Error>`, rule R236: the one place a command error is taken. DONE, IBUF, ILEN, CMDW, DROP, DIE and EIE stay. -/
def raise (e : CmdError) (s : State) : State :=
  { s with obuf := padTo 88 [], olen := 0, busy := false, err := true, ecode := e.code }

/-- The return from an error and the other acknowledges (rules R28, R240): `BusWrite` of `w` to STATUS, write-one-to-clear on
bits 1 (DONE), 2 (ERR, and ECODE with it) and 3 (DROP); it never sets a bit. -/
def acknowledge (w : Word) (s : State) : State :=
  { s with
    done := s.done && !w.getLsbD 1
    err := s.err && !w.getLsbD 2
    ecode := if w.getLsbD 2 then 0 else s.ecode
    drop := s.drop && !w.getLsbD 3 }

/-! ## Commands over a length check (rules R100, R101) -/

/-- A command on IN of free length: InvalidLength above 64 bytes, else the string `f IN` is committed. -/
def runFree (f : Bytes → Bytes) (s : State) : Result :=
  if 64 < s.ilen.toNat then .next (raise .invalidLength s) else .next (commitOk (f (inBytes s)) s)

/-- A command on IN of exactly `n` bytes: error `e` at any other length, else the string `f IN` is committed. -/
def runExact (n : Nat) (e : CmdError) (f : Bytes → Bytes) (s : State) : Result :=
  if s.ilen.toNat ≠ n then .next (raise e s) else .next (commitOk (f (inBytes s)) s)

/-! ## Host steps -/

/-- The effect of hardware reset and of soft reset on the block: every piece of state takes its value of rule R47 and a
pending completion is cancelled (rules R260, R262). The two fields that are not the block's stay (log entries 1 and 2). -/
def resetBlock (s : State) : State := { State.reset with agenda := s.agenda, reply := s.reply }

/-- A dropped write changes nothing but `DROP <- 1` (rule R38). -/
def dropWrite (s : State) : State := { s with drop := true }

/-- The accept attempt, `BusWrite(0x010, w)` (rules R38, R39). The word is not examined. -/
def accept (w : Word) (s : State) : State :=
  if s.busy || s.err then dropWrite s else { s with cmdw := w, busy := true, done := false }

/-- `BusWrite(0x008, w)`: soft reset when bit 31 is 1, else the two enables (rule R27). -/
def writeCtrl (w : Word) (s : State) : State :=
  if w.getLsbD 31 then resetBlock s else { s with die := w.getLsbD 0, eie := w.getLsbD 1 }

/-- `BusWrite(0x014, w)`: the low eight bits, dropped when BUSY = 1 (rules R30, R38). -/
def writeIlen (w : Word) (s : State) : State :=
  if s.busy then dropWrite s else { s with ilen := w.extractLsb' 0 8 }

/-- `BusWrite(0x040+4j, w)`: four bytes of IBUF, dropped when BUSY = 1 (rules R32, R38). -/
def writeIbuf (j : Fin 16) (w : Word) (s : State) : State :=
  if s.busy then dropWrite s else { s with ibuf := writeLanes s.ibuf j.val w }

/-- The word a register reads as. OLEN and OBUF read as zero while BUSY = 1, the output read gate (rules R25 to R33, R43, R66). -/
def readReg (s : State) : Reg → Word
  | .id => idValue
  | .cap => capValue
  | .ctrl => ctrlWord s
  | .status => statusWord s
  | .cmd => s.cmdw
  | .ilen => s.ilen.setWidth 32
  | .olen => if s.busy then 0 else s.olen.setWidth 32
  | .ibuf j => readLanes s.ibuf j.val
  | .obuf j => if s.busy then 0 else readLanes s.obuf j.val
  | .reserved => 0

/-- What a write to a register does. Writes to read-only and reserved registers are ignored and set nothing (rules R31, R33, R66). -/
def writeReg (r : Reg) (w : Word) (s : State) : State :=
  match r with
  | .ctrl => writeCtrl w s
  | .status => acknowledge w s
  | .cmd => accept w s
  | .ilen => writeIlen w s
  | .ibuf j => writeIbuf j w s
  | .id | .cap | .olen | .obuf _ | .reserved => s

/-- The block's answer to a read (rules R64, R66). -/
def busRead (size : AccessSize) (off : BitVec 8) (s : State) : BusReply :=
  if accepted size off then .data (readReg s (regAt off)) else .busError

/-- The block after a write: no state changes on a refused access (rule R64). -/
def busWrite (size : AccessSize) (off : BitVec 8) (w : Word) (s : State) : State :=
  if accepted size off then writeReg (regAt off) w s else s

/-- The block's answer to a write: every accepted access is answered `Okay`, also an ignored or dropped one (rules R38, R64, R66). -/
def busWriteReply (size : AccessSize) (off : BitVec 8) : BusReply := if accepted size off then .okay else .busError

/-- One step of the host. A read changes nothing in the block (rule R65); the answer goes to the bus (log entry 2). -/
def hostTurn (a : HostAction) (s : State) : State :=
  match a with
  | .busRead size off => { s with reply := some (busRead size off s) }
  | .busWrite size off w => { busWrite size off w s with reply := some (busWriteReply size off) }
  | .hardReset => resetBlock s

end Sys2Proof.Machine
end

