-- ==== Sys2Proof/Machine/Base58.lean ====
section
/-! DEFINITION. The base58 encoder, command B58ENC (spec/44_base58.md). It drops leading zero bytes (rule R193). -/

namespace Sys2Proof.Machine

/-- The ASCII codes of the 58 symbols in digit order (rules R191, R192): 1 to 9, A to Z without I and O, a to z without l. -/
def alphabet : Bytes :=
  [0x31, 0x32, 0x33, 0x34, 0x35, 0x36, 0x37, 0x38, 0x39, 0x41, 0x42, 0x43, 0x44, 0x45, 0x46] ++
  [0x47, 0x48, 0x4A, 0x4B, 0x4C, 0x4D, 0x4E, 0x50, 0x51, 0x52, 0x53, 0x54, 0x55, 0x56, 0x57] ++
  [0x58, 0x59, 0x5A, 0x61, 0x62, 0x63, 0x64, 0x65, 0x66, 0x67, 0x68, 0x69, 0x6A, 0x6B, 0x6D] ++
  [0x6E, 0x6F, 0x70, 0x71, 0x72, 0x73, 0x74, 0x75, 0x76, 0x77, 0x78, 0x79, 0x7A]

/-- The byte output for a digit value, `ALPHA[r]` (rules R191, R192). -/
def alphaByte (r : Nat) : Byte := alphabet.getD r 0

/-- The loop of rule R190: while `v > 0`, the remainder of `v` by 58 is put in front of the digits so far and `v` becomes the
quotient. The first argument bounds the number of iterations; `v` itself is bound enough, since `v div 58 < v` (rule R196). -/
def base58Loop : Nat → Nat → List Nat → List Nat
  | 0, _, ds => ds
  | fuel + 1, v, ds => if v = 0 then ds else base58Loop fuel (v / 58) (v % 58 :: ds)

/-- The base58 digits of a natural number, most significant first; none for 0 (rule R190). -/
def base58Digits (v : Nat) : List Nat := base58Loop v v []

/-- `ascii(B58(b))`: the text of a byte string, one ASCII byte per character (rules R190, R192). -/
def b58 (b : Bytes) : Bytes := (base58Digits (be b)).map alphaByte

/-- Command B58ENC (rule R194). -/
def execB58enc (s : State) : Result := runFree b58 s

end Sys2Proof.Machine
end

