-- ==== Sys2Proof/Machine/Sha256.lean ====
section
/-! DEFINITION. The function SHA-256 on byte strings (rules R120 to R127, R140). The spec supplies these rules from general
knowledge (spec/93, G1); the model follows the rules as written (log entry 14). -/

namespace Sys2Proof.Machine

/-- `rotl32` (rule R140). -/
def rotl32 (x : Word) (n : Nat) : Word := x.rotateLeft n

/-- `rotr32` (rule R140). -/
def rotr32 (x : Word) (n : Nat) : Word := x.rotateRight n

/-- `shr32` (rule R140). -/
def shr32 (x : Word) (n : Nat) : Word := x >>> n

/-- The eight words of one row of a table of 32-bit constants printed as one number, first word in the highest digits. -/
def rowWords (row : Nat) : List Word := ((List.range 8).map fun i => BitVec.ofNat 32 (row >>> (32 * i))).reverse

/-- The eight rows of the table of rule R120, each its eight words in a line. -/
def k256Rows : List Nat :=
  [0x428a2f98_71374491_b5c0fbcf_e9b5dba5_3956c25b_59f111f1_923f82a4_ab1c5ed5,
   0xd807aa98_12835b01_243185be_550c7dc3_72be5d74_80deb1fe_9bdc06a7_c19bf174,
   0xe49b69c1_efbe4786_0fc19dc6_240ca1cc_2de92c6f_4a7484aa_5cb0a9dc_76f988da,
   0x983e5152_a831c66d_b00327c8_bf597fc7_c6e00bf3_d5a79147_06ca6351_14292967,
   0x27b70a85_2e1b2138_4d2c6dfc_53380d13_650a7354_766a0abb_81c2c92e_92722c85,
   0xa2bfe8a1_a81a664b_c24b8b70_c76c51a3_d192e819_d6990624_f40e3585_106aa070,
   0x19a4c116_1e376c08_2748774c_34b0bcb5_391c0cb3_4ed8aa4a_5b9cca4f_682e6ff3,
   0x748f82ee_78a5636f_84c87814_8cc70208_90befffa_a4506ceb_bef9a3f7_c67178f2]

/-- The round constants `K256[0..63]` (rule R120). -/
def k256 : List Word := k256Rows.flatMap rowWords

/-- The eight words of the hash value `H[0..7]`, or of the working variables `a` to `h` (rule R124). -/
structure ShaVars where
  /-- `H[0]`, variable `a`. -/
  a : Word
  /-- `H[1]`, variable `b`. -/
  b : Word
  /-- `H[2]`, variable `c`. -/
  c : Word
  /-- `H[3]`, variable `d`. -/
  d : Word
  /-- `H[4]`, variable `e`. -/
  e : Word
  /-- `H[5]`, variable `f`. -/
  f : Word
  /-- `H[6]`, variable `g`. -/
  g : Word
  /-- `H[7]`, variable `h`. -/
  h : Word
deriving DecidableEq, Repr

/-- The initial hash value `H256_0` (rule R120); every evaluation starts from it (rule R122). -/
def h256Init : ShaVars where
  a := 0x6a09e667
  b := 0xbb67ae85
  c := 0x3c6ef372
  d := 0xa54ff53a
  e := 0x510e527f
  f := 0x9b05688c
  g := 0x1f83d9ab
  h := 0x5be0cd19

/-- The number of zero bytes of the padding: the smallest `k` with `(L + 1 + k) mod 64 = 56` (rule R121). -/
def padZeros (len : Nat) : Nat := (119 - len % 64) % 64

/-- `pad256(m)` (rule R121). -/
def pad256 (m : Bytes) : Bytes :=
  m ++ [0x80] ++ List.replicate (padZeros m.length) 0 ++ be64 (8 * m.length)

/-- The first `n` blocks of 64 bytes of a string, in order. -/
def blocks : Nat → Bytes → List Bytes
  | 0, _ => []
  | n + 1, m => m.take 64 :: blocks n (m.drop 64)

/-- `Ch` (rule R126). -/
def ch (x y z : Word) : Word := (x &&& y) ^^^ (~~~x &&& z)

/-- `Maj` (rule R126). -/
def maj (x y z : Word) : Word := (x &&& y) ^^^ (x &&& z) ^^^ (y &&& z)

/-- `BSIG0` (rule R126). -/
def bsig0 (x : Word) : Word := rotr32 x 2 ^^^ rotr32 x 13 ^^^ rotr32 x 22

/-- `BSIG1` (rule R126). -/
def bsig1 (x : Word) : Word := rotr32 x 6 ^^^ rotr32 x 11 ^^^ rotr32 x 25

/-- `SSIG0` (rule R126). -/
def ssig0 (x : Word) : Word := rotr32 x 7 ^^^ rotr32 x 18 ^^^ shr32 x 3

/-- `SSIG1` (rule R126). -/
def ssig1 (x : Word) : Word := rotr32 x 17 ^^^ rotr32 x 19 ^^^ shr32 x 10

/-- `n` more words of the message schedule, in front of the words so far, newest first: positions 1, 6, 14 and 15 are `W[t-2]`,
`W[t-7]`, `W[t-15]` and `W[t-16]` (rule R123). -/
def scheduleExtend : Nat → List Word → List Word
  | 0, ws => ws
  | n + 1, ws =>
    scheduleExtend n ((ssig1 (ws.getD 1 0) + ws.getD 6 0 + ssig0 (ws.getD 14 0) + ws.getD 15 0) :: ws)

/-- The message schedule `W[0..63]` of one block (rule R123). -/
def schedule (b : Bytes) : List Word := (scheduleExtend 48 ((List.range 16).map (beWord b)).reverse).reverse

/-- One iteration of the loop of rule R124, on `K256[t]` and `W[t]`; the eight assignments are simultaneous. -/
def shaRound (v : ShaVars) (k w : Word) : ShaVars :=
  let t1 := v.h + bsig1 v.e + ch v.e v.f v.g + k + w
  let t2 := bsig0 v.a + maj v.a v.b v.c
  { a := t1 + t2, b := v.a, c := v.b, d := v.c, e := v.d + t1, f := v.e, g := v.f, h := v.g }

/-- The compression of one block into the hash value (rule R124). -/
def shaCompress (hv : ShaVars) (b : Bytes) : ShaVars :=
  let v := (k256.zip (schedule b)).foldl (fun v kw => shaRound v kw.1 kw.2) hv
  { a := hv.a + v.a, b := hv.b + v.b, c := hv.c + v.c, d := hv.d + v.d,
    e := hv.e + v.e, f := hv.f + v.f, g := hv.g + v.g, h := hv.h + v.h }

/-- The 32-byte digest of a hash value, each word big-endian (rule R125). -/
def shaDigest (v : ShaVars) : Bytes :=
  be32 v.a ++ be32 v.b ++ be32 v.c ++ be32 v.d ++ be32 v.e ++ be32 v.f ++ be32 v.g ++ be32 v.h

/-- The function `SHA256` (rule R127). -/
def sha256 (m : Bytes) : Bytes :=
  let p := pad256 m
  shaDigest ((blocks (p.length / 64) p).foldl shaCompress h256Init)

end Sys2Proof.Machine
end

