-- ==== Sys2Proof/Machine/Ripemd160.lean ====
section
/-! DEFINITION. The function RIPEMD-160 on byte strings (rules R130 to R137). The spec supplies these rules from general
knowledge (spec/93, G2); the model follows the rules as written (log entry 14). -/

namespace Sys2Proof.Machine

/-- Message word selection, left line, `RL[j]` (rule R130). -/
def rmdRL : List Nat :=
  [0, 1, 2, 3, 4, 5, 6, 7, 8, 9, 10, 11, 12, 13, 14, 15] ++
  [7, 4, 13, 1, 10, 6, 15, 3, 12, 0, 9, 5, 2, 14, 11, 8] ++
  [3, 10, 14, 4, 9, 15, 8, 1, 2, 7, 0, 6, 13, 11, 5, 12] ++
  [1, 9, 11, 10, 0, 8, 12, 4, 13, 3, 7, 15, 14, 5, 6, 2] ++
  [4, 0, 5, 9, 7, 12, 2, 10, 14, 1, 3, 8, 11, 6, 15, 13]

/-- Message word selection, right line, `RR[j]` (rule R130). -/
def rmdRR : List Nat :=
  [5, 14, 7, 0, 9, 2, 11, 4, 13, 6, 15, 8, 1, 10, 3, 12] ++
  [6, 11, 3, 7, 0, 13, 5, 10, 14, 15, 8, 12, 4, 9, 1, 2] ++
  [15, 5, 1, 3, 7, 14, 6, 9, 11, 8, 12, 2, 10, 0, 4, 13] ++
  [8, 6, 4, 1, 3, 11, 15, 0, 5, 12, 2, 13, 9, 7, 10, 14] ++
  [12, 15, 10, 4, 1, 5, 8, 7, 6, 2, 13, 14, 0, 3, 9, 11]

/-- Rotation amounts, left line, `SL[j]` (rule R130). -/
def rmdSL : List Nat :=
  [11, 14, 15, 12, 5, 8, 7, 9, 11, 13, 14, 15, 6, 7, 9, 8] ++
  [7, 6, 8, 13, 11, 9, 7, 15, 7, 12, 15, 9, 11, 7, 13, 12] ++
  [11, 13, 6, 7, 14, 9, 13, 15, 14, 8, 13, 6, 5, 12, 7, 5] ++
  [11, 12, 14, 15, 14, 15, 9, 8, 9, 14, 5, 6, 8, 6, 5, 12] ++
  [9, 15, 5, 11, 6, 8, 13, 12, 5, 12, 13, 14, 11, 8, 5, 6]

/-- Rotation amounts, right line, `SR[j]` (rule R130). -/
def rmdSR : List Nat :=
  [8, 9, 9, 11, 13, 15, 15, 5, 7, 7, 8, 11, 14, 14, 12, 6] ++
  [9, 13, 15, 7, 12, 8, 9, 11, 7, 7, 12, 7, 6, 15, 13, 11] ++
  [9, 7, 15, 11, 8, 6, 6, 14, 12, 13, 5, 14, 13, 13, 7, 5] ++
  [15, 5, 8, 11, 14, 14, 6, 14, 6, 9, 12, 9, 12, 5, 15, 8] ++
  [8, 5, 12, 9, 12, 5, 14, 6, 8, 13, 6, 5, 15, 13, 11, 11]

/-- Added constants of the left line, one per round, `KL[0..4]` (rule R130). -/
def rmdKL : List Word := [0x00000000, 0x5a827999, 0x6ed9eba1, 0x8f1bbcdc, 0xa953fd4e]

/-- Added constants of the right line, one per round, `KR[0..4]` (rule R130). -/
def rmdKR : List Word := [0x50a28be6, 0x5c4dd124, 0x6d703ef3, 0x7a6d76e9, 0x00000000]

/-- The five words of the chaining value `h[0..4]`, or of one line's working variables `A` to `E` (rule R134). -/
structure RmdVars where
  /-- `h[0]`, variable `A`. -/
  a : Word
  /-- `h[1]`, variable `B_`. -/
  b : Word
  /-- `h[2]`, variable `C`. -/
  c : Word
  /-- `h[3]`, variable `D`. -/
  d : Word
  /-- `h[4]`, variable `E`. -/
  e : Word
deriving DecidableEq, Repr

/-- The initial chaining value `H160_0` (rule R130); every evaluation starts from it (rule R132). -/
def h160Init : RmdVars where
  a := 0x67452301
  b := 0xefcdab89
  c := 0x98badcfe
  d := 0x10325476
  e := 0xc3d2e1f0

/-- `pad160(m)`: as `pad256` but with the length little-endian (rule R131). -/
def pad160 (m : Bytes) : Bytes :=
  m ++ [0x80] ++ List.replicate (padZeros m.length) 0 ++ le64 (8 * m.length)

/-- The round functions `f(j, x, y, z)` (rule R133). -/
def rmdF (j : Nat) (x y z : Word) : Word :=
  if j ≤ 15 then x ^^^ y ^^^ z
  else if j ≤ 31 then (x &&& y) ||| (~~~x &&& z)
  else if j ≤ 47 then (x ||| ~~~y) ^^^ z
  else if j ≤ 63 then (x &&& z) ||| (y &&& ~~~z)
  else x ^^^ (y ||| ~~~z)

/-- The five simultaneous assignments of one line in one iteration of rule R134: `fj` is the round function's index, `x` the
message word, `k` the added constant, `r` the rotation amount. -/
def rmdStep (fj : Nat) (x k : Word) (r : Nat) (v : RmdVars) : RmdVars :=
  { a := v.e, b := rotl32 (v.a + rmdF fj v.b v.c v.d + x + k) r + v.e, c := v.b, d := rotl32 v.c 10, e := v.d }

/-- The left line of one block, steps 0 to `n - 1` (rule R134). -/
def rmdLeft (n : Nat) (blk : Bytes) (hv : RmdVars) : RmdVars :=
  (List.range n).foldl
    (fun v j => rmdStep j (leWord blk (rmdRL.getD j 0)) (rmdKL.getD (j / 16) 0) (rmdSL.getD j 0) v) hv

/-- The right line of one block, steps 0 to `n - 1`, with `f(79-j, ...)` (rules R133, R134). -/
def rmdRight (n : Nat) (blk : Bytes) (hv : RmdVars) : RmdVars :=
  (List.range n).foldl
    (fun v j => rmdStep (79 - j) (leWord blk (rmdRR.getD j 0)) (rmdKR.getD (j / 16) 0) (rmdSR.getD j 0) v) hv

/-- The compression of one block into the chaining value, with the final combination of the two lines (rule R134). -/
def rmdCompress (hv : RmdVars) (blk : Bytes) : RmdVars :=
  let l := rmdLeft 80 blk hv
  let r := rmdRight 80 blk hv
  { a := hv.b + l.c + r.d, b := hv.c + l.d + r.e, c := hv.d + l.e + r.a, d := hv.e + l.a + r.b, e := hv.a + l.b + r.c }

/-- The 20-byte digest of a chaining value, each word little-endian (rule R136). -/
def rmdDigest (v : RmdVars) : Bytes := le32 v.a ++ le32 v.b ++ le32 v.c ++ le32 v.d ++ le32 v.e

/-- The function `RMD160` (rule R137). -/
def rmd160 (m : Bytes) : Bytes :=
  let p := pad160 m
  rmdDigest ((blocks (p.length / 64) p).foldl rmdCompress h160Init)

end Sys2Proof.Machine
end

