-- ==== Sys2Proof/Machine/Hash160.lean ====
section
/-! DEFINITION. The Hash160 chain, command HASH160 (spec/42_hash160.md). -/

namespace Sys2Proof.Machine

/-- The function `HASH160`: SHA-256 first, RIPEMD-160 on its digest (rule R160). -/
def hash160 (m : Bytes) : Bytes := rmd160 (sha256 m)

/-- Command HASH160 (rule R161). -/
def execHash160 (s : State) : Result := runFree hash160 s

end Sys2Proof.Machine
end

