-- ==== Sys2Proof/Machine/KeyCompressor.lean ====
section
/-! DEFINITION. The key compressor, command KCOMP (spec/41_key_compressor.md). -/

namespace Sys2Proof.Machine

/-- The function `KCOMP` on a string of exactly 64 bytes: the parity of the WHOLE string as one big-endian integer, then X
(rule R150; conflict C1 of spec/90 settles that it is not the parity of X). No curve check (rule R153).
Total on other lengths, which no command gives it (log entry 6). -/
def kcomp (p : Bytes) : Bytes := (if be p % 2 = 0 then 0x02 else 0x03) :: p.take 32

/-- Command KCOMP (rule R151). -/
def execKcomp (s : State) : Result := runExact Config.keyBytes .invalidKeyLength kcomp s

end Sys2Proof.Machine
end

