-- ==== Sys2Proof/Machine/SinChecksum.lean ====
section
/-! DEFINITION. Double SHA-256, checksum and SIN assembly, commands DSHA256, CHKSUM, SINASM (spec/43_sin_checksum.md). -/

namespace Sys2Proof.Machine

/-- The function `DSHA256` (rule R170). -/
def dsha256 (m : Bytes) : Bytes := sha256 (sha256 m)

/-- The function `CHKSUM`: the first four bytes of the double digest (rule R172). -/
def chksum (m : Bytes) : Bytes := (dsha256 m).take 4

/-- The SIN payload of a digest: version prefix 0x0F, type byte 0x02, the digest (rules R93, R175). -/
def sinPayload (d : Bytes) : Bytes := 0x0F :: 0x02 :: d

/-- The function `SINASM` on a string of exactly 20 bytes: the payload and its checksum (rule R175). Total on other lengths,
which no command gives it (log entry 6). -/
def sinAssemble (d : Bytes) : Bytes := sinPayload d ++ chksum (sinPayload d)

/-- Command DSHA256 (rule R171). -/
def execDsha256 (s : State) : Result := runFree dsha256 s

/-- Command CHKSUM (rule R173). -/
def execChksum (s : State) : Result := runFree chksum s

/-- Command SINASM (rule R176). -/
def execSinasm (s : State) : Result := runExact Config.digestBytes .invalidLength sinAssemble s

end Sys2Proof.Machine
end

