-- ==== Sys2Proof/Machine/ChainAndControl.lean ====
section
/-! DEFINITION. The chained commands SIN and SINPK, the control commands NOP and XFER (spec/45_chain_and_control.md). -/

namespace Sys2Proof.Machine

/-- `ascii(SINTEXT(m))`: stages 3, 4 and 5 in that order (rule R210). -/
def sinText (m : Bytes) : Bytes := b58 (sinAssemble (hash160 m))

/-- Command SIN (rule R211). -/
def execSin (s : State) : Result := runFree sinText s

/-- Command SINPK: stage 2, then as SIN (rule R214). -/
def execSinpk (s : State) : Result := runExact Config.keyBytes .invalidKeyLength (fun p => sinText (kcomp p)) s

/-- Command NOP (rule R220). -/
def execNop (s : State) : Result := .next (commitKeep s)

/-- The data movement of XFER (rule R222): the stored OBUF[0..OLEN) to IBUF, zero above it, OLEN to ILEN. -/
def moveOutput (s : State) : State := { s with ibuf := padTo 64 (outBytes s), ilen := s.olen }

/-- Command XFER (rule R222): InvalidLength for an output above 64 bytes, else the output becomes the input and is kept. -/
def execXfer (s : State) : Result :=
  if 64 < s.olen.toNat then .next (raise .invalidLength s) else .next (commitKeep (moveOutput s))

end Sys2Proof.Machine
end

