-- ==== Sys2Proof/Machine/Primitives.lean ====
section
/-! DEFINITION. The commands SHA256 and RMD160 (spec/40_primitives.md). -/

namespace Sys2Proof.Machine

/-- Command SHA256 (rule R128). -/
def execSha256 (s : State) : Result := runFree sha256 s

/-- Command RMD160 (rule R138). -/
def execRmd160 (s : State) : Result := runFree rmd160 s

end Sys2Proof.Machine
end

