-- ==== Sys2Proof/Machine/Dispatch.lean ====
section
/-! DEFINITION. The dispatch of rule R100: one arm per command. -/

namespace Sys2Proof.Machine

/-- The commit of one command (rule R100); illegal words are `Sys2Proof.Machine.complete`'s. -/
def exec (i : Instr) (s : State) : Host.Outcome State Fault Refusal :=
  match i with
  | .nop => Sys2Proof.Machine.execNop s
  | .sha256 => Sys2Proof.Machine.execSha256 s
  | .rmd160 => Sys2Proof.Machine.execRmd160 s
  | .hash160 => Sys2Proof.Machine.execHash160 s
  | .dsha256 => Sys2Proof.Machine.execDsha256 s
  | .chksum => Sys2Proof.Machine.execChksum s
  | .sinasm => Sys2Proof.Machine.execSinasm s
  | .b58enc => Sys2Proof.Machine.execB58enc s
  | .kcomp => Sys2Proof.Machine.execKcomp s
  | .sin => Sys2Proof.Machine.execSin s
  | .sinpk => Sys2Proof.Machine.execSinpk s
  | .xfer => Sys2Proof.Machine.execXfer s

end Sys2Proof.Machine
end

