-- ==== Sys2Proof/Machine/Engine.lean ====
section
/-! DEFINITION. The engine's step and one turn of either agent (rules R12, R23, R40, R70). -/

namespace Sys2Proof.Machine

/-- `Complete` (rules R40, R100): the command word CMDW is decoded; a legal one is executed, an illegal one raises
IllegalCommand before any length check (rules R94, R231, R235). Total on states with BUSY = 0 (log entry 11). -/
def complete (s : State) : Result :=
  match decode s.cmdw with
  | .ok i => exec i s
  | .error _ => .next (raise .illegalCommand s)

/-- The engine's turn: `Complete` when BUSY = 1; when BUSY = 0 the engine has no step and nothing happens (rule R40). -/
def engineTurn (s : State) : Result := if s.busy then complete s else .next s

/-- One turn of the agent whose turn it is (rules R12, R70). -/
def takeTurn (t : Turn) (s : State) : Result :=
  match t with
  | .host a => .next (hostTurn a s)
  | .engine => engineTurn s

/-- The turn at the head of the agenda. An empty agenda leaves the engine alone with the block: a pending command completes
(the weak fairness of rule R275), an idle block waits (rule R47). Log entry 1. -/
def nextTurn (s : State) : Turn := s.agenda.headD .engine

/-- The state once the turn at the head of the agenda is taken off it. -/
def popTurn (s : State) : State := { s with agenda := s.agenda.tail }

/-- The state just after the host's write of the word `w` to CMD is accepted, with the engine's turn next: what makes the
engine run that word (rules R23, R39). ERR and its code are clear, since no command is accepted while ERR = 1. -/
def pendingCommand (w : Word) (s : State) : State :=
  { s with cmdw := w, busy := true, done := false, err := false, ecode := 0, agenda := .engine :: s.agenda }

end Sys2Proof.Machine
end

