-- ==== Sys2Proof/Machine/Step.lean ====
section
/-! DEFINITION. One step of the machine: the next turn of the one total order of steps (rule R70, log entry 1). -/

namespace Sys2Proof.Machine

/-- One step: the turn at the head of the agenda is taken, the engine's when the agenda is empty. -/
def step (s : State) : Host.Outcome State Fault Refusal := takeTurn (nextTurn s) (popTurn s)

/-- `s` with the command word of a row of spec/opcode_table.json pending and the engine's turn next, so that the next step
runs exactly it. The block fetches nothing (rule R23): this stands for the host's accepted write to CMD (log entry 3). -/
def State.withFetchWord (s : State) (nbits w : Nat) : State := pendingCommand (tableWord nbits w) s

end Sys2Proof.Machine
end

