-- ==== Sys2Proof/Machine/Script.lean ====
section
/-! DEFINITION. Host scripts: the notation of rules R110 and R111 as data, its run as bus accesses with the engine's steps among
them, its encoding, and the well-formedness of rule R112. A script is the host's; nothing here is state of the block.

WHERE a command completes inside a script is left open: anywhere after its accept (rules R14, R70 c, R75, R275). It is an argument
of a run, its `Placement` (DESIGN CHOICE, log entry 9), and a claim about scripts is one over every placement. -/

namespace Sys2Proof.Machine

/-- A statement of a host script (rules R110, R111). -/
inductive Stmt
  /-- `WR <reg>, <word>`. -/
  | wr (r : Reg) (w : Word)
  /-- `RD <reg>`. -/
  | rd (r : Reg)
  /-- `RD <reg> == <word>`. -/
  | rdExpect (r : Reg) (w : Word)
  /-- `LOAD <bytes>`. -/
  | load (b : Bytes)
  /-- `CMD <mnemonic>`. -/
  | cmd (i : Instr)
  /-- `WAIT`. -/
  | wait
  /-- The host waits for `irq` = 1 instead of polling (rule R265, program P2); no bus access (DESIGN CHOICE, log entry 16). -/
  | awaitIrq
  /-- `RUN <mnemonic>`. -/
  | run (i : Instr)
  /-- `ACK <flags>`. -/
  | ack (doneFlag errFlag dropFlag : Bool)
  /-- `UNLOAD`. -/
  | unload
  /-- `SRST`. -/
  | srst
deriving DecidableEq, Repr

/-- Where the engine takes its steps among the bus accesses of a script: one entry for each access, in order, true where the
engine, if it has a step, takes it just before that access. Past its last entry every access finds the engine done: no
completion is put off for ever (the weak fairness of rule R275). DESIGN CHOICE, log entry 9. -/
abbrev Placement := List Bool

/-- A line of the run of a script, as programs P1 to P4 list them: an access, the triple of rule R110, or a step of the engine. -/
inductive TraceLine
  /-- A read of the word at an offset, and the word it returned. -/
  | read (off : BitVec 8) (w : Word)
  /-- A write of a word at an offset. -/
  | write (off : BitVec 8) (w : Word)
  /-- The engine's step `Complete`. -/
  | engine
deriving DecidableEq, Repr

/-- The turn a line of a run stands for. -/
def TraceLine.turn : TraceLine → Turn
  | .read off _ => .host (.busRead .word off)
  | .write off w => .host (.busWrite .word off w)
  | .engine => .engine

/-- How far a script has run. -/
structure ScriptRun where
  /-- The state of the block. -/
  state : State
  /-- The placement of the accesses still to come. -/
  placement : Placement
  /-- The lines so far, oldest first. -/
  trace : List TraceLine
deriving DecidableEq, Repr

/-- The run of a script before its first statement. -/
def ScriptRun.start (p : Placement) (s : State) : ScriptRun := { state := s, placement := p, trace := [] }

/-- The encoding of a script: its bus accesses alone (rule R110). -/
def ScriptRun.encoding (r : ScriptRun) : List TraceLine := r.trace.filter (· != .engine)

/-- The turns of the machine a run is made of. -/
def ScriptRun.turns (r : ScriptRun) : List Turn := r.trace.map TraceLine.turn

/-- Some turns, one after the other. -/
def takeTurns : List Turn → State → Result
  | [], s => .next s
  | t :: ts, s =>
    match takeTurn t s with
    | .next s' => takeTurns ts s'
    | .fault r => .fault r
    | .refused r => .refused r

/-- The turns of a run, taken from `s`, lead to its state: the run is one of the machine (rules R12, R70). -/
def ScriptRun.IsRunFrom (s : State) (r : ScriptRun) : Prop := takeTurns r.turns s = .next r.state

/-! ## Accesses and engine steps -/

/-- The state after the engine's turn, which always answers a next state (log entry 13). -/
def engineStep (s : State) : State :=
  match engineTurn s with
  | .next t => t
  | .fault _ | .refused _ => s

/-- The engine takes its step, if it has one (rule R40). -/
def ScriptRun.engine (r : ScriptRun) : ScriptRun :=
  if r.state.busy then { r with state := engineStep r.state, trace := r.trace ++ [.engine] } else r

/-- What the next access finds: the engine's step before it where the placement says so (log entry 9). -/
def ScriptRun.ready (r : ScriptRun) : ScriptRun :=
  { if r.placement.headD true then r.engine else r with placement := r.placement.tail }

/-- The word the latest access of a run returned, when it was a read. -/
def ScriptRun.word (r : ScriptRun) : Word :=
  match r.state.reply with
  | some (.data w) => w
  | some .okay | some .busError | none => 0

/-- One read, `RD` (rule R110). -/
def ScriptRun.read (off : BitVec 8) (r : ScriptRun) : ScriptRun :=
  let q := { r.ready with state := hostTurn (.busRead .word off) r.ready.state }
  { q with trace := q.trace ++ [.read off q.word] }

/-- One write, `WR` (rule R110). -/
def ScriptRun.write (off : BitVec 8) (w : Word) (r : ScriptRun) : ScriptRun :=
  let q := r.ready
  { q with state := hostTurn (.busWrite .word off w) q.state, trace := q.trace ++ [.write off w] }

/-- `ceil(n/4)`. -/
def wordsFor (n : Nat) : Nat := (n + 3) / 4

/-- The writes of `LOAD`, offsets and words (rule R111): IBUF0 up, missing bytes of the last word taken as 0, then ILEN. -/
def loadWrites (b : Bytes) : List (BitVec 8 × Word) :=
  ((List.range (wordsFor b.length)).map fun j => (BitVec.ofNat 8 (0x40 + 4 * j), leWord b j))
    ++ [(Reg.ilen.offset, BitVec.ofNat 32 b.length)]

/-- The offsets `UNLOAD` reads when its read of OLEN returns `n` (rule R111): OBUF0 up. -/
def unloadOffsets (n : Nat) : List (BitVec 8) :=
  (List.range (wordsFor n)).map fun j => BitVec.ofNat 8 (0x80 + 4 * j)

/-- At most `n` more polls, then one: read STATUS until bit 0 of the word read is 0. -/
def ScriptRun.poll : Nat → ScriptRun → ScriptRun
  | 0, r => r.read Reg.status.offset
  | n + 1, r =>
    let q := r.read Reg.status.offset
    if q.word.getLsbD 0 then q.poll n else q

/-- `WAIT` (rule R111): read STATUS until BUSY reads as 0. The placement bounds the polls that can find BUSY = 1 (log entry 9). -/
def ScriptRun.wait (r : ScriptRun) : ScriptRun := r.poll r.placement.length

/-- The mask of `ACK`: 0x2 for DONE, 0x4 for ERR, 0x8 for DROP, or their sum (rule R111). -/
def ackMask (doneFlag errFlag dropFlag : Bool) : Word :=
  0#28 ++ BitVec.ofBool dropFlag ++ BitVec.ofBool errFlag ++ BitVec.ofBool doneFlag ++ 0#1

/-! ## Statements -/

/-- The host waits until `irq` is 1: while it is 0 only the engine can move (rules R45, R265). -/
def ScriptRun.awaitIrq (r : ScriptRun) : ScriptRun := if irq r.state then r else r.engine

/-- `UNLOAD` (rule R111): read OLEN, then as many words of OBUF as the word read asks for. -/
def ScriptRun.unload (r : ScriptRun) : ScriptRun :=
  let q := r.read Reg.olen.offset
  (unloadOffsets q.word.toNat).foldl (fun q off => q.read off) q

/-- One statement run, with its expansion (rules R110, R111). -/
def Stmt.execute (st : Stmt) (r : ScriptRun) : ScriptRun :=
  match st with
  | .wr x w => r.write x.offset w
  | .rd x => r.read x.offset
  | .rdExpect x _ => r.read x.offset
  | .load b => (loadWrites b).foldl (fun q a => q.write a.1 a.2) r
  | .cmd i => r.write Reg.cmd.offset (encode i)
  | .wait => r.wait
  | .awaitIrq => r.awaitIrq
  | .run i => (r.write Reg.cmd.offset (encode i)).wait
  | .ack d e p => r.write Reg.status.offset (ackMask d e p)
  | .unload => r.unload
  | .srst => r.write Reg.ctrl.offset 0x80000000

/-- A script run under a placement, to its end: its last access is performed and BUSY = 0 (rule R15). -/
def runScript (sts : List Stmt) (p : Placement) (s : State) : ScriptRun :=
  (sts.foldl (fun r st => Stmt.execute st r) (ScriptRun.start p s)).engine

/-! ## Expectations and well-formedness -/

/-- The value a statement expects its read to return is the one it returned (rule R110); `r` is the run after the statement. -/
def Stmt.expectationMet (r : ScriptRun) : Stmt → Bool
  | .rdExpect _ w => r.word == w
  | .wr _ _ | .rd _ | .load _ | .cmd _ | .wait | .awaitIrq | .run _ | .ack _ _ _ | .unload | .srst => true

/-- Every read of a script returns the value stated as its expectation. -/
def expectationsMetFrom : List Stmt → ScriptRun → Bool
  | [], _ => true
  | st :: rest, r => st.expectationMet (st.execute r) && expectationsMetFrom rest (st.execute r)

/-- What rule R112 asks of one statement: BUSY and ERR are those its first access finds. Beside it `<reg>` is a named register
(rule R110), a `LOAD` fits in IBUF, and a wait for `irq` ends (DESIGN CHOICE, log entry 16). -/
def Stmt.issuedWell (r : ScriptRun) : Stmt → Bool
  | .wr x _ | .rd x | .rdExpect x _ => x != .reserved
  | .load b => !r.ready.state.busy && decide (b.length ≤ Config.ibufBytes)
  | .cmd _ | .run _ => !r.ready.state.busy && !r.ready.state.err
  | .unload => !r.ready.state.busy
  | .awaitIrq => irq r.awaitIrq.state
  | .wait | .ack _ _ _ | .srst => true

/-- Every statement of a script is issued well in the run so far (rule R112). -/
def wellFormedFrom : List Stmt → ScriptRun → Bool
  | [], _ => true
  | st :: rest, r => st.issuedWell r && wellFormedFrom rest (st.execute r)

/-- The run of a script under one placement is well formed (rule R112). -/
def scriptWellFormedAlong (sts : List Stmt) (p : Placement) (s : State) : Bool := wellFormedFrom sts (.start p s)

/-- A script is well formed from a state when its run is under every placement (rules R112, R275; log entry 9). -/
def ScriptWellFormed (sts : List Stmt) (s : State) : Prop := ∀ p : Placement, scriptWellFormedAlong sts p s = true

end Sys2Proof.Machine
end

