-- ==== Sys2Proof/Safety.lean ====
section
/-! DEFINITION. What counts as a safe run, in the terms claims use: the invariants of rule R46, and the commits of rules R41,
R42 and R236 and the reset of rule R47 as relations between a state and the next, written field by field from the rules and
not through the operations of Machine/Ops.lean. -/

namespace Sys2Proof.Machine

/-- The invariants (a) to (f) of rule R46, and the one of rule R234. Clause (d) is stronger than the rule's: it also asks for
zeros above OLEN while BUSY = 1, which makes it inductive (no step between accept and complete writes OBUF or OLEN); DEDUCED, log entry 12. -/
structure Inv (s : State) : Prop where
  /-- (a) BUSY = 1 implies DONE = 0 and ERR = 0. -/
  busy_flags : s.busy = true → s.done = false ∧ s.err = false
  /-- (b) ERR = 0 if and only if ECODE = 0. -/
  err_ecode : s.err = false ↔ s.ecode = 0
  /-- (c) OLEN <= 88. -/
  olen_bound : s.olen.toNat ≤ 88
  /-- (d) `OBUF[i] = 0` for all `i >= OLEN`. -/
  obuf_tail : ∀ i (h : i < 88), s.olen.toNat ≤ i → s.obuf[i] = 0
  /-- (e) ERR = 1 implies OLEN = 0 and OBUF all zero. -/
  err_output : s.err = true → s.olen = 0 ∧ ∀ i (h : i < 88), s.obuf[i] = 0
  /-- (f) DONE and ERR are never both 1. -/
  done_err : ¬ (s.done = true ∧ s.err = true)
  /-- Rule R234: ECODE is always one of 0, 2, 5, 6. -/
  ecode_raised : s.ecode = 0 ∨ s.ecode = 2 ∨ s.ecode = 5 ∨ s.ecode = 6

/-- What no command writes: CMDW, DROP, DIE, EIE (rules R41, R236), and the model's own two fields. -/
structure KeepsControls (s t : State) : Prop where
  /-- CMDW is unchanged. -/
  cmdw : t.cmdw = s.cmdw
  /-- DROP is unchanged. -/
  drop : t.drop = s.drop
  /-- DIE is unchanged. -/
  die : t.die = s.die
  /-- EIE is unchanged. -/
  eie : t.eie = s.eie
  /-- The turns to come are unchanged. -/
  agenda : t.agenda = s.agenda
  /-- The last answer on the bus is unchanged. -/
  reply : t.reply = s.reply

/-- `t` is `s` after `commit_ok(out)`, rule R41. -/
structure CommitsOk (s t : State) (out : Bytes) : Prop where
  /-- The string fits: `len(out) <= 88`. -/
  fits : out.length ≤ 88
  /-- `OBUF[i]` is `out[i]` below `len(out)` and 0 from there up. -/
  obuf : ∀ i (h : i < 88), t.obuf[i] = if h' : i < out.length then out[i] else 0
  /-- OLEN is `len(out)`. -/
  olen : t.olen.toNat = out.length
  /-- BUSY is 0. -/
  busy : t.busy = false
  /-- DONE is 1. -/
  done : t.done = true
  /-- ERR is unchanged. -/
  err : t.err = s.err
  /-- ECODE is unchanged. -/
  ecode : t.ecode = s.ecode
  /-- IBUF is unchanged. -/
  ibuf : t.ibuf = s.ibuf
  /-- ILEN is unchanged. -/
  ilen : t.ilen = s.ilen
  /-- Nothing else changes. -/
  controls : KeepsControls s t

/-- `t` is `s` after `commit_keep()`, rule R42. -/
structure CommitsKeep (s t : State) : Prop where
  /-- OBUF is unchanged. -/
  obuf : t.obuf = s.obuf
  /-- OLEN is unchanged. -/
  olen : t.olen = s.olen
  /-- BUSY is 0. -/
  busy : t.busy = false
  /-- DONE is 1. -/
  done : t.done = true
  /-- ERR is unchanged. -/
  err : t.err = s.err
  /-- ECODE is unchanged. -/
  ecode : t.ecode = s.ecode
  /-- Nothing else changes but what the command itself writes. -/
  controls : KeepsControls s t

/-- `t` is `s` after `raise <Error>` with error code `code`, rule R236. -/
structure CommitsError (s t : State) (code : BitVec 4) : Prop where
  /-- OBUF is all zero. -/
  obuf : ∀ i (h : i < 88), t.obuf[i] = 0
  /-- OLEN is 0. -/
  olen : t.olen = 0
  /-- BUSY is 0. -/
  busy : t.busy = false
  /-- ERR is 1. -/
  err : t.err = true
  /-- ECODE is the error's code. -/
  ecode : t.ecode = code
  /-- DONE is unchanged (it is 0 since the accept). -/
  done : t.done = s.done
  /-- IBUF is unchanged. -/
  ibuf : t.ibuf = s.ibuf
  /-- ILEN is unchanged. -/
  ilen : t.ilen = s.ilen
  /-- Nothing else changes. -/
  controls : KeepsControls s t

/-- Every piece of state of the block has its reset value, rule R47. -/
structure AtReset (t : State) : Prop where
  /-- IBUF is all zero. -/
  ibuf : ∀ i (h : i < 64), t.ibuf[i] = 0
  /-- ILEN is 0. -/
  ilen : t.ilen = 0
  /-- OBUF is all zero. -/
  obuf : ∀ i (h : i < 88), t.obuf[i] = 0
  /-- OLEN is 0. -/
  olen : t.olen = 0
  /-- CMDW is 0. -/
  cmdw : t.cmdw = 0
  /-- BUSY, DONE, ERR, DROP are 0. -/
  flags : t.busy = false ∧ t.done = false ∧ t.err = false ∧ t.drop = false
  /-- ECODE is 0. -/
  ecode : t.ecode = 0
  /-- DIE and EIE are 0. -/
  enables : t.die = false ∧ t.eie = false

/-- The commands of a list executed one after the other, each on the state the one before it left. -/
def execAll : List Instr → State → Result
  | [], s => .next s
  | i :: is, s =>
    match exec i s with
    | .next t => execAll is t
    | .fault r => .fault r
    | .refused r => .refused r

/-- The condition for success of each command, the second column of rule R101's table. -/
def LengthOk (i : Instr) (s : State) : Prop :=
  match i with
  | .nop => True
  | .sha256 | .rmd160 | .hash160 | .dsha256 | .chksum | .b58enc | .sin => s.ilen.toNat ≤ 64
  | .sinasm => s.ilen.toNat = 20
  | .kcomp | .sinpk => s.ilen.toNat = 64
  | .xfer => s.olen.toNat ≤ 64

/-- The code of the error each command raises otherwise, the third column of rule R101's table with the codes of rule R230. -/
def lengthErrorCode : Instr → BitVec 4
  | .kcomp | .sinpk => 2
  | .nop | .sha256 | .rmd160 | .hash160 | .dsha256 | .chksum | .b58enc | .sin | .sinasm | .xfer => 6

/-- The host actions that reset the block: `HardReset`, and a 32-bit write to CTRL with bit 31 set (rules R260, R262). -/
def IsReset (a : HostAction) : Prop := a = .hardReset ∨ ∃ w : Word, w.getLsbD 31 = true ∧ a = .busWrite .word 0x08 w

/-- The host actions that acknowledge an error: a 32-bit write to STATUS with bit 2 set (rule R240). -/
def IsErrorAcknowledge (a : HostAction) : Prop := ∃ w : Word, w.getLsbD 2 = true ∧ a = .busWrite .word 0x0C w

/-! ## The byte strings of the document's vectors -/

/-- The compressed key of vector S4 (spec/95), used in the examples of rules R161 and R211. -/
def vectorKey : Bytes :=
  0x02 :: (be32 0x8440d3ca ++ be32 0x303ac024 ++ be32 0x86f841db ++ be32 0xe77bb04d ++
    be32 0xcd4cef26 ++ be32 0x9a305b74 ++ be32 0xf072dd50 ++ be32 0xac6ad112)

/-- The Hash160 of `vectorKey`, rule R161's example. -/
def vectorDigest : Bytes :=
  be32 0x76997e34 ++ be32 0xde47c3f6 ++ be32 0xb9d6aaaa ++ be32 0xa42d2a21 ++ be32 0xbfc14fc7

/-- The 20 bytes behind the two fixed ones in the document's checksum vector, rules R173 and R176. -/
def vectorChecksumDigest : Bytes :=
  be32 0x3fa98244 ++ be32 0xc5d38c08 ++ be32 0x8048a440 ++ be32 0x253335d7 ++ be32 0x45a9ed65

/-- The bytes of a text, one ASCII code per character. -/
def asciiOf (s : String) : Bytes := s.toList.map fun c => BitVec.ofNat 8 c.toNat

end Sys2Proof.Machine
end

