-- ==== Sys2Proof/Certificates/Slice0/Obligations.lean ====
section
/-! DEFINITION. The statements for the provers. Each docstring names the rule of spec/ it formalises, or, where it rests on a
choice of the model, the log entry. -/

open Sys2Proof Sys2Proof.Machine

/-! ## Command words and dispatch -/

/-- Rule R91, its command-word column: the twelve words decode to their commands, and the encoder gives them back. -/
def Obligations.TwelveCommandWordsDecode : Prop :=
  (decode 0x00000000 = .ok .nop ∧ decode 0x00000001 = .ok .sha256 ∧ decode 0x00000002 = .ok .rmd160 ∧
    decode 0x00000003 = .ok .hash160 ∧ decode 0x00000004 = .ok .dsha256 ∧ decode 0x00000005 = .ok .chksum ∧
    decode 0x00000006 = .ok .sinasm ∧ decode 0x00000007 = .ok .b58enc ∧ decode 0x00000008 = .ok .kcomp ∧
    decode 0x00000009 = .ok .sin ∧ decode 0x0000000A = .ok .sinpk ∧ decode 0x0000000B = .ok .xfer) ∧
  ∀ i : Instr, i.wellFormed = true ∧ decode (encode i) = .ok i

/-- Decode and encode agree on all words: every word is exactly one of the twelve command words, or illegal by rule R94: its bits
31:8 are not all zero or its bits 7:0 are 0x0C or more. The spec says it in rule R95, which it marks as derived. -/
def Obligations.DecoderIsTotalAndExact : Prop :=
  ∀ w : Word,
    (∀ i : Instr, decode w = .ok i ↔ w = encode i) ∧
    ((∃ e, decode w = .error e) ↔ (w.toNat / 256 ≠ 0 ∨ 0x0C ≤ w.toNat % 256))

/-- From rules R40 and R100, over the agenda of log entry 1: with BUSY = 1 and the engine's turn next, one step is the execution
of the decoded command word; and the state `withFetchWord` makes runs the word it was given (log entry 3). -/
def Obligations.EngineStepRunsDecodedCommand : Prop :=
  (∀ (s : State) (i : Instr), s.busy = true → decode s.cmdw = .ok i → s.agenda = [] → step s = exec i s) ∧
  (∀ (s : State) (i : Instr) (ts : List Turn), s.busy = true → decode s.cmdw = .ok i → s.agenda = .engine :: ts →
    step s = exec i { s with agenda := ts }) ∧
  (∀ (s : State) (i : Instr), step (s.withFetchWord 32 (encode i).toNat) =
    exec i { s with cmdw := encode i, busy := true, done := false, err := false, ecode := 0 })

/-- From rules R12, R40 and R70, over the agenda of log entry 1: a turn of the host is one step; the engine has no step while
BUSY = 0, so its turn then changes nothing. -/
def Obligations.HostTurnIsOneStepAndIdleEngineHasNone : Prop :=
  (∀ (s : State) (a : HostAction) (ts : List Turn), s.agenda = .host a :: ts →
    step s = .next (hostTurn a { s with agenda := ts })) ∧
  (∀ (s : State) (ts : List Turn), s.busy = false → s.agenda = .engine :: ts → step s = .next { s with agenda := ts }) ∧
  (∀ s : State, s.busy = false → s.agenda = [] → step s = .next s)

/-- Rule R231: a command whose word is illegal (rule R94) raises IllegalCommand, code 5, whatever any length is; the same word
was accepted like any other. -/
def Obligations.IllegalCommandWordRaises : Prop :=
  (∀ s : State, s.busy = true → (s.cmdw.toNat / 256 ≠ 0 ∨ 0x0C ≤ s.cmdw.toNat % 256) →
    ∃ t, engineTurn s = .next t ∧ CommitsError s t 5) ∧
  (∀ (s : State) (w : Word), s.busy = false → s.err = false → (w.toNat / 256 ≠ 0 ∨ 0x0C ≤ w.toNat % 256) →
    busWrite .word 0x10 w s = { s with cmdw := w, busy := true, done := false })

/-- A sentence of rule R40, in the states that have the invariants: after a completion BUSY = 0 and exactly one of DONE, ERR is
1. -/
def Obligations.CompletionSetsExactlyOneFlag : Prop :=
  ∀ s : State, Inv s → s.busy = true →
    ∃ t, engineTurn s = .next t ∧ t.busy = false ∧ (t.done = true ∧ t.err = false ∨ t.done = false ∧ t.err = true)

/-- From rules R14, R40 and R64, over the agenda of log entry 1: every step of every state answers a next state; nothing in the
block is stuck, faults or is refused. -/
def Obligations.EveryStepAnswersNext : Prop := ∀ s : State, ∃ t, step s = .next t

/-! ## Invariants -/

/-- The invariants of rule R46, which the spec marks as derived, at reset. -/
def Obligations.ResetMeetsInvariants : Prop := Inv State.reset

/-- The invariants (a) to (f) of rule R46, which the spec marks as derived, and ECODE one of 0, 2, 5, 6 (rule R234), are kept by
every step from every state that has them. Clause (d) is asked for while BUSY = 1 as well (log entry 12). -/
def Obligations.EveryStepKeepsInvariants : Prop := ∀ s t : State, Inv s → step s = .next t → Inv t

/-! ## The commands -/

/-- Rule R220: command NOP completes in every state and changes nothing but BUSY and DONE; the accept before it cleared DONE; with
ERR = 1 it is dropped; run from an idle state it leaves the output and STATUS = 2. -/
def Obligations.NopCommand : Prop :=
  encode .nop = 0x00000000 ∧
  (∀ s : State, ∃ t, exec .nop s = .next t ∧ CommitsKeep s t ∧ t.ibuf = s.ibuf ∧ t.ilen = s.ilen ∧
    (s.die = true → irq t = true)) ∧
  (∀ s : State, s.err = true → busWrite .word 0x10 (encode .nop) s = { s with drop := true }) ∧
  (∀ s : State, s.busy = false → s.err = false → s.ecode = 0 → s.drop = false →
    (busWrite .word 0x10 (encode .nop) s).done = false ∧
    ∃ t, engineTurn (busWrite .word 0x10 (encode .nop) s) = .next t ∧ t.obuf = s.obuf ∧ t.olen = s.olen ∧
      busRead .word 0x0C t = .data 0x00000002)

/-- Rule R128: command SHA256. -/
def Obligations.Sha256Command : Prop :=
  encode .sha256 = 0x00000001 ∧
  (∀ s : State, s.ilen.toNat ≤ 64 →
    ∃ t, exec .sha256 s = .next t ∧ CommitsOk s t (sha256 (s.ibuf.toList.take s.ilen.toNat)) ∧ t.olen = 32) ∧
  (∀ s : State, 64 < s.ilen.toNat → ∃ t, exec .sha256 s = .next t ∧ CommitsError s t 6) ∧
  (∀ m : Bytes, m.length ≤ 55 → (pad256 m).length = 64) ∧
  (∀ m : Bytes, 56 ≤ m.length → m.length ≤ 64 → (pad256 m).length = 128) ∧
  sha256 [0x61, 0x62, 0x63] =
    be32 0xba7816bf ++ be32 0x8f01cfea ++ be32 0x414140de ++ be32 0x5dae2223 ++
    be32 0xb00361a3 ++ be32 0x96177a9c ++ be32 0xb410ff61 ++ be32 0xf20015ad

/-- Rule R138: command RMD160. -/
def Obligations.Rmd160Command : Prop :=
  encode .rmd160 = 0x00000002 ∧
  (∀ s : State, s.ilen.toNat ≤ 64 →
    ∃ t, exec .rmd160 s = .next t ∧ CommitsOk s t (rmd160 (s.ibuf.toList.take s.ilen.toNat)) ∧ t.olen = 20) ∧
  (∀ s : State, 64 < s.ilen.toNat → ∃ t, exec .rmd160 s = .next t ∧ CommitsError s t 6) ∧
  (∀ m : Bytes, m.length ≤ 55 → (pad160 m).length = 64) ∧
  (∀ m : Bytes, 56 ≤ m.length → m.length ≤ 64 → (pad160 m).length = 128) ∧
  rmd160 [0x61, 0x62, 0x63] =
    be32 0x8eb208f7 ++ be32 0xe05d987a ++ be32 0x9b044a8e ++ be32 0x98c6b087 ++ be32 0xf15a0bfc

/-- Rule R161: command HASH160. -/
def Obligations.Hash160Command : Prop :=
  encode .hash160 = 0x00000003 ∧
  (∀ s : State, s.ilen.toNat ≤ 64 →
    ∃ t, exec .hash160 s = .next t ∧ CommitsOk s t (rmd160 (sha256 (s.ibuf.toList.take s.ilen.toNat))) ∧ t.olen = 20) ∧
  (∀ s : State, 64 < s.ilen.toNat → ∃ t, exec .hash160 s = .next t ∧ CommitsError s t 6) ∧
  (∀ m : Bytes, m.length ≤ 55 → (pad256 m).length = 64) ∧
  (∀ m : Bytes, 56 ≤ m.length → m.length ≤ 64 → (pad256 m).length = 128) ∧
  rmd160 (sha256 vectorKey) = vectorDigest

/-- Rule R171: command DSHA256. -/
def Obligations.Dsha256Command : Prop :=
  encode .dsha256 = 0x00000004 ∧
  (∀ s : State, s.ilen.toNat ≤ 64 →
    ∃ t, exec .dsha256 s = .next t ∧ CommitsOk s t (sha256 (sha256 (s.ibuf.toList.take s.ilen.toNat))) ∧ t.olen = 32) ∧
  (∀ s : State, 64 < s.ilen.toNat → ∃ t, exec .dsha256 s = .next t ∧ CommitsError s t 6) ∧
  (sha256 (sha256 (0x0F :: 0x02 :: vectorChecksumDigest))).take 4 = [0x4d, 0x61, 0x71, 0xea]

/-- Rule R173: command CHKSUM. -/
def Obligations.ChksumCommand : Prop :=
  encode .chksum = 0x00000005 ∧
  (∀ s : State, s.ilen.toNat ≤ 64 →
    ∃ t, exec .chksum s = .next t ∧
      CommitsOk s t ((sha256 (sha256 (s.ibuf.toList.take s.ilen.toNat))).take 4) ∧ t.olen = 4) ∧
  (∀ s : State, 64 < s.ilen.toNat → ∃ t, exec .chksum s = .next t ∧ CommitsError s t 6) ∧
  chksum (0x0F :: 0x02 :: vectorChecksumDigest) = [0x4d, 0x61, 0x71, 0xea]

/-- Rule R176: command SINASM. -/
def Obligations.SinasmCommand : Prop :=
  encode .sinasm = 0x00000006 ∧
  (∀ s : State, s.ilen.toNat = 20 →
    ∃ t payload, payload = [0x0F, 0x02] ++ s.ibuf.toList.take 20 ∧ exec .sinasm s = .next t ∧
      CommitsOk s t (payload ++ (sha256 (sha256 payload)).take 4) ∧ t.olen = 26 ∧ t.obuf[0] = 0x0F ∧ t.obuf[1] = 0x02 ∧
      (∀ i (h : i < 20), t.obuf[2 + i] = s.ibuf[i])) ∧
  (∀ s : State, s.ilen.toNat ≠ 20 → ∃ t, exec .sinasm s = .next t ∧ CommitsError s t 6) ∧
  sinAssemble vectorDigest = [0x0F, 0x02] ++ vectorDigest ++ [0x16, 0xe9, 0xc0, 0x31] ∧
  sinAssemble vectorChecksumDigest = [0x0F, 0x02] ++ vectorChecksumDigest ++ [0x4d, 0x61, 0x71, 0xea]

/-- Rule R194: command B58ENC. The text is the base58 text of the input read as one big-endian integer; the empty result is a
success; no text holds a zero byte. -/
def Obligations.B58encCommand : Prop :=
  encode .b58enc = 0x00000007 ∧
  (∀ s : State, s.ilen.toNat ≤ 64 →
    ∃ t, exec .b58enc s = .next t ∧ CommitsOk s t (b58 (s.ibuf.toList.take s.ilen.toNat)) ∧
      (∀ i (h : i < 88), i < t.olen.toNat → t.obuf[i] ≠ 0) ∧
      (be (s.ibuf.toList.take s.ilen.toNat) = 0 → t.olen = 0)) ∧
  (∀ s : State, 64 < s.ilen.toNat → ∃ t, exec .b58enc s = .next t ∧ CommitsError s t 6) ∧
  b58 [] = [] ∧ b58 [0x00, 0x00, 0x39] = asciiOf "z" ∧ b58 [0x39] = asciiOf "z" ∧ b58 [0x3A] = asciiOf "21" ∧
  b58 [0xFF] = asciiOf "5Q" ∧ b58 [0x01, 0x00] = asciiOf "5R" ∧ (b58 (List.replicate 64 0xFF)).length = 88 ∧
  b58 [0x00, 0x12, 0x34, 0x56, 0x78, 0x9A, 0xBC, 0xDE] = asciiOf "h1iJWQwqX" ∧
  b58 [0x01, 0x23, 0x45, 0x67, 0x89, 0xAB, 0xCD, 0xEF] = asciiOf "C3CPq7c8PY"

/-- Rule R151: command KCOMP, with the prefix taken from bit 0 of byte 63 as its pseudocode says (rule R152), for any 64 bytes. -/
def Obligations.KcompCommand : Prop :=
  encode .kcomp = 0x00000008 ∧
  (∀ s : State, s.ilen.toNat = 64 →
    ∃ t, exec .kcomp s = .next t ∧
      CommitsOk s t (((0x02 : Byte) + (s.ibuf[63] &&& 1)) :: s.ibuf.toList.take 32) ∧ t.olen = 33 ∧
      (t.obuf[0] = 0x02 ∨ t.obuf[0] = 0x03) ∧ (∀ i (h : i < 32), t.obuf[1 + i] = s.ibuf[i])) ∧
  (∀ s : State, s.ilen.toNat ≠ 64 → ∃ t, exec .kcomp s = .next t ∧ CommitsError s t 2) ∧
  kcomp (List.replicate 64 0) = 0x02 :: List.replicate 32 0 ∧
  kcomp (List.replicate 63 0 ++ [0x01]) = 0x03 :: List.replicate 32 0 ∧
  (∀ y : Bytes, y.length = 32 → y.getD 31 0 &&& 1 = 0 → kcomp (vectorKey.tail ++ y) = vectorKey)

/-- Rule R211: command SIN. -/
def Obligations.SinCommand : Prop :=
  encode .sin = 0x00000009 ∧
  (∀ s : State, s.ilen.toNat ≤ 64 →
    ∃ t d p f, d = rmd160 (sha256 (s.ibuf.toList.take s.ilen.toNat)) ∧ p = [0x0F, 0x02] ++ d ∧
      f = p ++ (sha256 (sha256 p)).take 4 ∧ exec .sin s = .next t ∧ CommitsOk s t (b58 f) ∧
      t.olen = 35 ∧ t.obuf[0] = 0x54 ∧ (t.obuf[1] = 0x65 ∨ t.obuf[1] = 0x66)) ∧
  (∀ s : State, 64 < s.ilen.toNat → ∃ t, exec .sin s = .next t ∧ CommitsError s t 6) ∧
  sinText vectorKey = asciiOf "Tf8MXZi8Nf9VckDhYCoWU7rwh2E8mXTnyZi"

/-- Rule R214: command SINPK. -/
def Obligations.SinpkCommand : Prop :=
  encode .sinpk = 0x0000000A ∧
  (∀ s : State, s.ilen.toNat = 64 →
    ∃ t, exec .sinpk s = .next t ∧
      CommitsOk s t (sinText (((0x02 : Byte) + (s.ibuf[63] &&& 1)) :: s.ibuf.toList.take 32)) ∧ t.olen = 35) ∧
  (∀ s : State, s.ilen.toNat ≠ 64 → ∃ t, exec .sinpk s = .next t ∧ CommitsError s t 2) ∧
  sinText (kcomp (vectorKey.tail ++ List.replicate 32 0)) = asciiOf "Tf8MXZi8Nf9VckDhYCoWU7rwh2E8mXTnyZi" ∧
  kcomp (vectorKey.tail ++ List.replicate 31 0 ++ [0x01]) = 0x03 :: vectorKey.tail ∧
  sinText (0x03 :: vectorKey.tail) = asciiOf "Tf2uFmnLz2rjwrk5yZFaki3abZAja9zFAAy"

/-- Rule R222: command XFER: the stored OBUF[0..OLEN) goes to IBUF with zeros above it and OLEN to ILEN, and the output stays;
a longer output, which only B58ENC gives, is an error that leaves the input. No other command writes IBUF or ILEN or reads
OBUF or OLEN. -/
def Obligations.XferCommand : Prop :=
  encode .xfer = 0x0000000B ∧
  (∀ s : State, s.olen.toNat ≤ 64 →
    ∃ t, exec .xfer s = .next t ∧ CommitsKeep s t ∧ t.ilen = s.olen ∧
      ∀ i (h : i < 64), t.ibuf[i] = if i < s.olen.toNat then s.obuf[i] else 0) ∧
  (∀ s : State, 64 < s.olen.toNat → ∃ t, exec .xfer s = .next t ∧ CommitsError s t 6) ∧
  (∀ (i : Instr) (s t : State), i ≠ .nop → exec i s = .next t → 64 < t.olen.toNat → i = .b58enc) ∧
  (∀ (i : Instr) (s t : State), i ≠ .xfer → exec i s = .next t → t.ibuf = s.ibuf ∧ t.ilen = s.ilen ∧
    ∀ (o : Vector Byte 88) (n : BitVec 8), ∃ t', exec i { s with obuf := o, olen := n } = .next t' ∧
      t'.ibuf = t.ibuf ∧ t'.ilen = t.ilen ∧ t'.done = t.done ∧ t'.err = t.err ∧ t'.ecode = t.ecode ∧
      (i ≠ .nop → t'.obuf = t.obuf ∧ t'.olen = t.olen))

/-- Rules R101, R232, R233: at its completion a command succeeds exactly when its length condition holds, and otherwise fails
with its own error; an illegal word fails with code 5 before any length is looked at. -/
def Obligations.CompletionFailsExactlyOnLengthOrWord : Prop :=
  ∀ s : State, s.busy = true → s.err = false →
    ∃ t, engineTurn s = .next t ∧
      (∀ i, decode s.cmdw = .ok i → LengthOk i s → t.done = true ∧ t.err = false) ∧
      (∀ i, decode s.cmdw = .ok i → ¬ LengthOk i s → t.err = true ∧ t.ecode = lengthErrorCode i) ∧
      ((∀ i, decode s.cmdw ≠ .ok i) → t.err = true ∧ t.ecode = 5)

/-- From rules R21, R41, R42 and R236: the frame of all twelve commands. CMDW, DROP, DIE and EIE stay; IBUF and ILEN stay but
for XFER; OBUF and OLEN stay where a command succeeds that is NOP or XFER; DONE stays where it fails; ERR and ECODE stay where
it succeeds. -/
def Obligations.EveryCommandFrame : Prop :=
  ∀ (i : Instr) (s t : State), exec i s = .next t →
    KeepsControls s t ∧ t.busy = false ∧
    (i ≠ .xfer → t.ibuf = s.ibuf ∧ t.ilen = s.ilen) ∧
    (¬ LengthOk i s → t.ibuf = s.ibuf ∧ t.ilen = s.ilen ∧ t.done = s.done) ∧
    (LengthOk i s → t.err = s.err ∧ t.ecode = s.ecode ∧ (i = .nop ∨ i = .xfer → t.obuf = s.obuf ∧ t.olen = s.olen))

/-- From rules R40 and R100; the spec says it in rules R5 and R22, which it marks as derived: the result of a command other
than NOP and XFER is a function of ILEN and of the bytes of IBUF below it: it depends on no byte at ILEN or above, on no
earlier output, on no flag; that of XFER is a function of OLEN and the bytes of OBUF below it. -/
def Obligations.ResultDependsOnInputOnly : Prop :=
  (∀ (i : Instr) (s s' t t' : State), i ≠ .nop → i ≠ .xfer → s.ilen = s'.ilen →
    (∀ k (h : k < 64), k < s.ilen.toNat → s.ibuf[k] = s'.ibuf[k]) →
    exec i s = .next t → exec i s' = .next t' →
    t.obuf = t'.obuf ∧ t.olen = t'.olen ∧
      (s.err = s'.err → s.ecode = s'.ecode → t.err = t'.err ∧ t.ecode = t'.ecode)) ∧
  (∀ s s' t t' : State, s.olen = s'.olen → (∀ k (h : k < 88), k < s.olen.toNat → s.obuf[k] = s'.obuf[k]) →
    exec .xfer s = .next t → exec .xfer s' = .next t' → s.olen.toNat ≤ 64 →
    t.ibuf = t'.ibuf ∧ t.ilen = t'.ilen)

/-- Rule R236: the failed completion, for every error; the interrupt line rises if EIE = 1. -/
def Obligations.FailedCompletionClearsOutput : Prop :=
  ∀ (e : CmdError) (s : State), CommitsError s (raise e s) e.code ∧ (s.eie = true → irq (raise e s) = true)

/-- From rules R100 and R222; the spec says it in rule R212, which it marks as derived: a chained command gives the OBUF and
OLEN of the single-stage commands joined by XFER, from every state, and HASH160 those of its two hashes joined by XFER. -/
def Obligations.ChainedCommandsEqualTheirStages : Prop :=
  (∀ s : State, s.ilen.toNat ≤ 64 →
    ∃ t u, exec .hash160 s = .next t ∧ execAll [.sha256, .xfer, .rmd160] s = .next u ∧ t.obuf = u.obuf ∧ t.olen = u.olen) ∧
  (∀ s : State, s.ilen.toNat ≤ 64 →
    ∃ t u, exec .sin s = .next t ∧ execAll [.hash160, .xfer, .sinasm, .xfer, .b58enc] s = .next u ∧
      t.obuf = u.obuf ∧ t.olen = u.olen) ∧
  (∀ s : State, s.ilen.toNat = 64 →
    ∃ t u, exec .sinpk s = .next t ∧
      execAll [.kcomp, .xfer, .hash160, .xfer, .sinasm, .xfer, .b58enc] s = .next u ∧
      t.obuf = u.obuf ∧ t.olen = u.olen)

/-! ## The hash functions -/

/-- Rule R140: rotations and shift as arithmetic on unsigned numbers, addition modulo 2^32, the logical operations bit by bit. -/
def Obligations.WordArithmetic : Prop :=
  (∀ x y : Word, (x + y).toNat = (x.toNat + y.toNat) % 2 ^ 32) ∧
  (∀ (x : Word) (n : Nat), 0 < n → n < 32 →
    (rotl32 x n).toNat = x.toNat * 2 ^ n % 2 ^ 32 + x.toNat / 2 ^ (32 - n) ∧ rotr32 x n = rotl32 x (32 - n) ∧
      (shr32 x n).toNat = x.toNat / 2 ^ n) ∧
  (∀ (x y : Word) (i : Nat), i < 32 → (x &&& y).getLsbD i = (x.getLsbD i && y.getLsbD i) ∧
    (x ||| y).getLsbD i = (x.getLsbD i || y.getLsbD i) ∧ (x ^^^ y).getLsbD i = Bool.xor (x.getLsbD i) (y.getLsbD i) ∧
    (~~~x).getLsbD i = !x.getLsbD i) ∧
  (∀ x : Word, ~~~x = 0xFFFFFFFF ^^^ x)

/-- Rules R121 and R131: the padding of both hash functions: the fewest zeros, whole blocks, the length at the end, big-endian
in the one and little-endian in the other. -/
def Obligations.PaddingOfBothHashes : Prop :=
  ∀ m : Bytes,
    (∃ k : Nat, pad256 m = m ++ [0x80] ++ List.replicate k 0 ++ be64 (8 * m.length) ∧
      pad160 m = m ++ [0x80] ++ List.replicate k 0 ++ le64 (8 * m.length) ∧
      (m.length + 1 + k) % 64 = 56 ∧ ∀ k', (m.length + 1 + k') % 64 = 56 → k ≤ k') ∧
    (pad256 m).length = 64 * ((m.length + 8) / 64 + 1) ∧ (pad160 m).length = 64 * ((m.length + 8) / 64 + 1) ∧
    (∀ n : Nat, n < 2 ^ 64 → (be64 n).length = 8 ∧ be (be64 n) = n ∧ (le64 n).length = 8 ∧ be (le64 n).reverse = n)

/-- Rule R123: the message schedule of one 64-byte block. -/
def Obligations.MessageScheduleRecurrence : Prop :=
  ∀ b : Bytes, b.length = 64 →
    (schedule b).length = 64 ∧
    (∀ t, t < 16 → ((schedule b).getD t 0).toNat =
      (b.getD (4 * t) 0).toNat * 2 ^ 24 + (b.getD (4 * t + 1) 0).toNat * 2 ^ 16 +
        (b.getD (4 * t + 2) 0).toNat * 2 ^ 8 + (b.getD (4 * t + 3) 0).toNat) ∧
    (∀ t, 16 ≤ t → t < 64 → (schedule b).getD t 0 =
      ssig1 ((schedule b).getD (t - 2) 0) + (schedule b).getD (t - 7) 0 +
        ssig0 ((schedule b).getD (t - 15) 0) + (schedule b).getD (t - 16) 0)

/-- Rule R124: the 64 iterations of the SHA-256 compression and the addition at the end. -/
def Obligations.Sha256CompressionLoop : Prop :=
  ∀ (hv : ShaVars) (b : Bytes), b.length = 64 →
    ∃ v : Nat → ShaVars, v 0 = hv ∧
      (∀ t, t < 64 → ∃ t1 t2 : Word,
        t1 = (v t).h + bsig1 (v t).e + ch (v t).e (v t).f (v t).g + k256.getD t 0 + (schedule b).getD t 0 ∧
        t2 = bsig0 (v t).a + maj (v t).a (v t).b (v t).c ∧
        (v (t + 1)).h = (v t).g ∧ (v (t + 1)).g = (v t).f ∧ (v (t + 1)).f = (v t).e ∧ (v (t + 1)).e = (v t).d + t1 ∧
        (v (t + 1)).d = (v t).c ∧ (v (t + 1)).c = (v t).b ∧ (v (t + 1)).b = (v t).a ∧ (v (t + 1)).a = t1 + t2) ∧
      (shaCompress hv b).a = hv.a + (v 64).a ∧ (shaCompress hv b).b = hv.b + (v 64).b ∧
      (shaCompress hv b).c = hv.c + (v 64).c ∧ (shaCompress hv b).d = hv.d + (v 64).d ∧
      (shaCompress hv b).e = hv.e + (v 64).e ∧ (shaCompress hv b).f = hv.f + (v 64).f ∧
      (shaCompress hv b).g = hv.g + (v 64).g ∧ (shaCompress hv b).h = hv.h + (v 64).h

/-- Rule R134: the 80 steps of the two lines of RIPEMD-160 and their combination. -/
def Obligations.Ripemd160CompressionLoop : Prop :=
  ∀ (hv : RmdVars) (blk : Bytes), blk.length = 64 →
    ∃ (x : Nat → Word) (l r : Nat → RmdVars),
      (∀ t, t < 16 → (x t).toNat = (blk.getD (4 * t) 0).toNat + (blk.getD (4 * t + 1) 0).toNat * 2 ^ 8 +
        (blk.getD (4 * t + 2) 0).toNat * 2 ^ 16 + (blk.getD (4 * t + 3) 0).toNat * 2 ^ 24) ∧
      l 0 = hv ∧ r 0 = hv ∧
      (∀ j, j < 80 →
        (l (j + 1)).a = (l j).e ∧ (l (j + 1)).e = (l j).d ∧ (l (j + 1)).d = rotl32 (l j).c 10 ∧ (l (j + 1)).c = (l j).b ∧
        (l (j + 1)).b = rotl32 ((l j).a + rmdF j (l j).b (l j).c (l j).d + x (rmdRL.getD j 0) + rmdKL.getD (j / 16) 0)
          (rmdSL.getD j 0) + (l j).e) ∧
      (∀ j, j < 80 →
        (r (j + 1)).a = (r j).e ∧ (r (j + 1)).e = (r j).d ∧ (r (j + 1)).d = rotl32 (r j).c 10 ∧ (r (j + 1)).c = (r j).b ∧
        (r (j + 1)).b = rotl32 ((r j).a + rmdF (79 - j) (r j).b (r j).c (r j).d + x (rmdRR.getD j 0) + rmdKR.getD (j / 16) 0)
          (rmdSR.getD j 0) + (r j).e) ∧
      (rmdCompress hv blk).a = hv.b + (l 80).c + (r 80).d ∧ (rmdCompress hv blk).b = hv.c + (l 80).d + (r 80).e ∧
      (rmdCompress hv blk).c = hv.d + (l 80).e + (r 80).a ∧ (rmdCompress hv blk).d = hv.e + (l 80).a + (r 80).b ∧
      (rmdCompress hv blk).e = hv.a + (l 80).b + (r 80).c

/-- Rules R122, R125, R127, R132, R136 and R137: each hash function starts from its initial value, takes the 64-byte blocks of
the padded message one after the other, and gives the words of the last value, big-endian and little-endian. -/
def Obligations.HashFunctionsTakeBlocksInOrder : Prop :=
  ∀ m : Bytes,
    (∃ v : Nat → ShaVars, v 0 = h256Init ∧
      (∀ i, i < (pad256 m).length / 64 → v (i + 1) = shaCompress (v i) (((pad256 m).drop (64 * i)).take 64)) ∧
      ∃ h : ShaVars, h = v ((pad256 m).length / 64) ∧
        sha256 m = be32 h.a ++ be32 h.b ++ be32 h.c ++ be32 h.d ++ be32 h.e ++ be32 h.f ++ be32 h.g ++ be32 h.h) ∧
    (∃ v : Nat → RmdVars, v 0 = h160Init ∧
      (∀ i, i < (pad160 m).length / 64 → v (i + 1) = rmdCompress (v i) (((pad160 m).drop (64 * i)).take 64)) ∧
      ∃ h : RmdVars, h = v ((pad160 m).length / 64) ∧
        rmd160 m = le32 h.a ++ le32 h.b ++ le32 h.c ++ le32 h.d ++ le32 h.e) ∧
    (sha256 m).length = 32 ∧ (rmd160 m).length = 20

/-- From rules R121, R131 and R170; the spec says it in rules R162 (marked as derived) and R170: the inner RIPEMD-160 of
HASH160 and the outer SHA-256 of DSHA256 always hash one block, of the form given. -/
def Obligations.SecondHashTakesOneBlock : Prop :=
  ∀ m : Bytes,
    pad160 (sha256 m) = sha256 m ++ [0x80] ++ List.replicate 23 0 ++ [0x00, 0x01, 0x00, 0x00, 0x00, 0x00, 0x00, 0x00] ∧
    pad256 (sha256 m) = sha256 m ++ [0x80] ++ List.replicate 23 0 ++ [0x00, 0x00, 0x00, 0x00, 0x00, 0x00, 0x01, 0x00] ∧
    (pad160 (sha256 m)).length = 64 ∧ (pad256 (sha256 m)).length = 64

/-! ## Base58 -/

/-- Rule R191: the byte table is the ASCII of the alphabet, 58 different symbols, and no code has bit 7 set (rule R192). -/
def Obligations.AlphabetIsTheDocuments : Prop :=
  alphabet = asciiOf "123456789ABCDEFGHJKLMNPQRSTUVWXYZabcdefghijkmnopqrstuvwxyz" ∧ alphabet.length = 58 ∧
    alphabet.Nodup ∧ (∀ b ∈ alphabet, b.getLsbD 7 = false) ∧ (∀ r, r < 58 → alphaByte r = alphabet.getD r 0)

/-- Rule R190: the base58 text, by its loop (one pass of it puts the remainder's symbol behind the text of the quotient) and in
closed form: no character for 0; else `k` characters, `k` the smallest
number with `58^k > v`, character `i` the symbol of `(v div 58^(k-1-i)) mod 58`, the first not the symbol of 0. -/
def Obligations.Base58ClosedForm : Prop :=
  ∀ b : Bytes,
    (be b = 0 → b58 b = []) ∧
    (0 < be b → ∃ k, (b58 b).length = k ∧ be b < 58 ^ k ∧ (∀ k', be b < 58 ^ k' → k ≤ k') ∧
      (∀ i, i < k → (b58 b).getD i 0 = alphaByte (be b / 58 ^ (k - 1 - i) % 58)) ∧ (b58 b).getD 0 0 ≠ 0x31) ∧
    (∀ c : Bytes, 0 < be b → be c = be b / 58 → b58 b = b58 c ++ [alphaByte (be b % 58)])

/-- From rules R9 and R190; the spec says it in rule R193, which it marks as derived: leading zero bytes contribute nothing. -/
def Obligations.Base58DropsLeadingZeros : Prop :=
  (∀ (n : Nat) (b : Bytes), b58 (List.replicate n 0x00 ++ b) = b58 b) ∧ (∀ n : Nat, b58 (List.replicate n 0x00) = [])

/-- From rule R190; the spec says it in rule R197, which it marks as derived: the longest texts of inputs of the lengths of its
table, reached by bytes of 0xFF; the length grows with the integer. -/
def Obligations.Base58Lengths : Prop :=
  (∀ nm ∈ ([(0, 0), (1, 2), (2, 3), (4, 6), (20, 28), (22, 31), (26, 36), (32, 44), (33, 46), (64, 88)] : List (Nat × Nat)),
    (∀ b : Bytes, b.length = nm.1 → (b58 b).length ≤ nm.2) ∧ (b58 (List.replicate nm.1 0xFF)).length = nm.2) ∧
  (∀ b : Bytes, b.length ≤ 64 → (b58 b).length ≤ 88) ∧
  (∀ b c : Bytes, be b ≤ be c → (b58 b).length ≤ (b58 c).length)

/-- From rules R175 and R190; the spec says it in rule R198, which it marks as derived: the text of a 26-byte value that begins
0F 02 has 35 characters, the first `T`, the second `e` or `f`. -/
def Obligations.SinTextHas35Characters : Prop :=
  ∀ b : Bytes, b.length = 24 →
    (b58 (0x0F :: 0x02 :: b)).length = 35 ∧ (b58 (0x0F :: 0x02 :: b)).getD 0 0 = 0x54 ∧
      ((b58 (0x0F :: 0x02 :: b)).getD 1 0 = 0x65 ∨ (b58 (0x0F :: 0x02 :: b)).getD 1 0 = 0x66)

/-- Rule R150, with rule R152, which the spec marks as derived: the compressor's prefix is the parity of the whole 64-byte
integer, which is bit 0 of byte 63; bytes 32 to 62 and the upper seven bits of byte 63 have no influence. -/
def Obligations.CompressedKeyParity : Prop :=
  (∀ p : Bytes, p.length = 64 →
    (be p % 2 = 0 → kcomp p = 0x02 :: p.take 32) ∧ (be p % 2 = 1 → kcomp p = 0x03 :: p.take 32)) ∧
  (∀ p : Bytes, p.length = 64 → be p % 2 = (p.getD 63 0).toNat % 2) ∧
  (∀ p q : Bytes, p.length = 64 → q.length = 64 → p.take 32 = q.take 32 →
    (p.getD 63 0).getLsbD 0 = (q.getD 63 0).getLsbD 0 → kcomp p = kcomp q)

/-! ## The register window -/

/-- Rules R25 and R26: the two constant registers: reads in every state, ignored writes, the fields of CAP. -/
def Obligations.IdAndCapAreConstant : Prop :=
  (∀ s : State, busRead .word 0x00 s = .data 0x48313630 ∧ busRead .word 0x04 s = .data 0x010B5840) ∧
  (∀ (s : State) (w : Word), busWrite .word 0x00 w s = s ∧ busWrite .word 0x04 w s = s) ∧
  ((0x010B5840 : Word).extractLsb' 0 8).toNat = Config.ibufBytes ∧
  ((0x010B5840 : Word).extractLsb' 8 8).toNat = Config.obufBytes ∧
  (∀ i : Instr, (encode i).toNat ≤ ((0x010B5840 : Word).extractLsb' 16 8).toNat) ∧
  (∃ i : Instr, (encode i).toNat = ((0x010B5840 : Word).extractLsb' 16 8).toNat) ∧
  ((0x010B5840 : Word).extractLsb' 24 8).toNat = 1

/-- Rule R27: register CTRL. -/
def Obligations.CtrlRegister : Prop :=
  (∀ s : State, ∃ v, busRead .word 0x08 s = .data v ∧ v.toNat = 2 * s.eie.toNat + s.die.toNat) ∧
  (∀ (s : State) (w : Word), w.getLsbD 31 = false →
    busWrite .word 0x08 w s = { s with die := w.getLsbD 0, eie := w.getLsbD 1 }) ∧
  (∀ (s : State) (w : Word), w.getLsbD 31 = true → AtReset (busWrite .word 0x08 w s)) ∧
  busWriteReply .word 0x08 = .okay

/-- Rule R28: register STATUS: the word it reads as, and write-one-to-clear. A write never sets a bit and changes nothing else. -/
def Obligations.StatusRegister : Prop :=
  (∀ s : State, ∃ v, busRead .word 0x0C s = .data v ∧
    v.toNat = s.busy.toNat + 2 * s.done.toNat + 4 * s.err.toNat + 8 * s.drop.toNat + 256 * s.ecode.toNat) ∧
  (∀ (s : State) (w : Word), ∃ t, busWrite .word 0x0C w s = t ∧
    (t.done = if w.getLsbD 1 then false else s.done) ∧
    (t.err = if w.getLsbD 2 then false else s.err) ∧
    (t.ecode = if w.getLsbD 2 then 0 else s.ecode) ∧
    (t.drop = if w.getLsbD 3 then false else s.drop) ∧
    t = { s with done := t.done, err := t.err, ecode := t.ecode, drop := t.drop })

/-- Rules R29 and R39: register CMD reads as the last accepted word; a write with BUSY = 0 and ERR = 0 is accepted, whatever
the word, and an illegal word fails at completion; with BUSY = 1 or ERR = 1 it is dropped and CMDW keeps its value. -/
def Obligations.CommandWriteIsAccepted : Prop :=
  (∀ s : State, busRead .word 0x10 s = .data s.cmdw) ∧ State.reset.cmdw = 0 ∧
  (∀ (s : State) (w : Word), s.busy = false → s.err = false →
    busWrite .word 0x10 w s = { s with cmdw := w, busy := true, done := false }) ∧
  (∀ (s : State) (w : Word), s.busy = true ∨ s.err = true → busWrite .word 0x10 w s = { s with drop := true }) ∧
  (∀ (s : State) (w : Word), s.busy = false → s.err = false → commandWordLegal w = false →
    ∃ t, engineTurn (busWrite .word 0x10 w s) = .next t ∧ t.err = true ∧ t.ecode = 5)

/-- Rule R38: exactly which writes are dropped: to CMD, ILEN and IBUF while BUSY = 1, to CMD alone while BUSY = 0 and ERR = 1. A
dropped write is answered Okay and changes DROP alone; no other write sets DROP. -/
def Obligations.DroppedWritesExactly : Prop :=
  (∀ (s : State) (off : BitVec 8) (w : Word), s.busy = true →
    (off = 0x10 ∨ off = 0x14 ∨ 0x40 ≤ off.toNat ∧ off.toNat ≤ 0x7C ∧ off.toNat % 4 = 0) →
    busWrite .word off w s = { s with drop := true } ∧ busWriteReply .word off = .okay) ∧
  (∀ (s : State) (w : Word), s.busy = false → s.err = true →
    busWrite .word 0x10 w s = { s with drop := true } ∧ busWriteReply .word 0x10 = .okay) ∧
  (∀ (s : State) (size : AccessSize) (off : BitVec 8) (w : Word), s.drop = false → (busWrite size off w s).drop = true →
    size = .word ∧
      (s.busy = true ∧ (off = 0x10 ∨ off = 0x14 ∨ 0x40 ≤ off.toNat ∧ off.toNat ≤ 0x7C ∧ off.toNat % 4 = 0) ∨
        s.busy = false ∧ s.err = true ∧ off = 0x10))

/-- Rule R30: register ILEN: a read returns it; a write stores the low eight bits when BUSY = 0 and is dropped when BUSY = 1;
a value above 64 makes every command that reads IBUF fail. -/
def Obligations.IlenRegister : Prop :=
  (∀ s : State, ∃ v, busRead .word 0x14 s = .data v ∧ v.toNat = s.ilen.toNat) ∧
  (∀ (s : State) (w : Word), s.busy = false → ∃ t, busWrite .word 0x14 w s = t ∧ t.ilen.toNat = w.toNat % 256 ∧
    t = { s with ilen := t.ilen }) ∧
  (∀ (s : State) (w : Word), s.busy = true → busWrite .word 0x14 w s = { s with drop := true }) ∧
  (∀ (s : State) (i : Instr), 64 < s.ilen.toNat → i ≠ .nop → i ≠ .xfer → ∃ t, exec i s = .next t ∧ t.err = true)

/-- Rules R31, R33 and R43: OLEN and OBUF read as their values when BUSY = 0 and as zero when BUSY = 1; writes to them are
ignored; the stored values are untouched by the gate, and XFER sees them. -/
def Obligations.OutputReadGate : Prop :=
  (∀ s : State, s.busy = false → ∃ v, busRead .word 0x18 s = .data v ∧ v.toNat = s.olen.toNat) ∧
  (∀ (s : State) (j : Fin 22), s.busy = false → ∃ v, busRead .word (BitVec.ofNat 8 (0x80 + 4 * j.val)) s = .data v ∧
    ∀ i (h : i < 4), v.extractLsb' (8 * i) 8 = s.obuf[4 * j.val + i]) ∧
  (∀ s : State, s.busy = true → busRead .word 0x18 s = .data 0 ∧
    ∀ j : Fin 22, busRead .word (BitVec.ofNat 8 (0x80 + 4 * j.val)) s = .data 0) ∧
  (∀ (s : State) (w : Word), busWrite .word 0x18 w s = s ∧
    ∀ j : Fin 22, busWrite .word (BitVec.ofNat 8 (0x80 + 4 * j.val)) w s = s) ∧
  (∀ s : State, s.busy = true → s.olen.toNat ≤ 64 → ∃ t, exec .xfer s = .next t ∧ t.ilen = s.olen ∧
    ∀ i (h : i < 64), t.ibuf[i] = if i < s.olen.toNat then s.obuf[i] else 0)

/-- Rule R32, with the lanes of rule R62: word `j` of IBUF holds byte `4j+i` in bits `8i+7:8i`; reads return the true bytes at
any time; a write stores those four bytes, and nothing else, when BUSY = 0, and is dropped when BUSY = 1. -/
def Obligations.IbufRegisters : Prop :=
  (∀ (s : State) (j : Fin 16), ∃ v, busRead .word (BitVec.ofNat 8 (0x40 + 4 * j.val)) s = .data v ∧
    v.toNat = (s.ibuf[4 * j.val]).toNat + 256 * (s.ibuf[4 * j.val + 1]).toNat +
      65536 * (s.ibuf[4 * j.val + 2]).toNat + 16777216 * (s.ibuf[4 * j.val + 3]).toNat) ∧
  (∀ (s : State) (j : Fin 16) (w : Word), s.busy = false →
    ∃ t, busWrite .word (BitVec.ofNat 8 (0x40 + 4 * j.val)) w s = t ∧ t = { s with ibuf := t.ibuf } ∧
      (∀ i (h : i < 4), t.ibuf[4 * j.val + i] = w.extractLsb' (8 * i) 8) ∧
      (∀ k (h : k < 64), k / 4 ≠ j.val → t.ibuf[k] = s.ibuf[k])) ∧
  (∀ (s : State) (j : Fin 16) (w : Word), s.busy = true →
    busWrite .word (BitVec.ofNat 8 (0x40 + 4 * j.val)) w s = { s with drop := true })

/-- Rule R66: reserved offsets read as zero; writes to reserved offsets and read-only registers are answered Okay and change
nothing. -/
def Obligations.ReservedAndReadOnlyOffsets : Prop :=
  (∀ (s : State) (off : BitVec 8), off.toNat % 4 = 0 →
    (0x1C ≤ off.toNat ∧ off.toNat ≤ 0x3C ∨ 0xD8 ≤ off.toNat ∧ off.toNat ≤ 0xFC) → busRead .word off s = .data 0) ∧
  (∀ (s : State) (off : BitVec 8) (w : Word), off.toNat % 4 = 0 →
    (off = 0x00 ∨ off = 0x04 ∨ off = 0x18 ∨ 0x80 ≤ off.toNat ∧ off.toNat ≤ 0xD4 ∨
      0x1C ≤ off.toNat ∧ off.toNat ≤ 0x3C ∨ 0xD8 ≤ off.toNat ∧ off.toNat ≤ 0xFC) →
    busWrite .word off w s = s ∧ busWriteReply .word off = .okay)

/-- Rule R64: an access of another size than 32 bits or at an offset that is no multiple of 4 is answered BusError and changes
nothing, DROP included; every other access is answered otherwise. -/
def Obligations.RefusedAccessesChangeNothing : Prop :=
  (∀ (s : State) (size : AccessSize) (off : BitVec 8) (w : Word), (size ≠ .word ∨ off.toNat % 4 ≠ 0) →
    busRead size off s = .busError ∧ busWrite size off w s = s ∧ busWriteReply size off = .busError) ∧
  (∀ (s : State) (off : BitVec 8), off.toNat % 4 = 0 →
    (∃ v, busRead .word off s = .data v) ∧ busWriteReply .word off = .okay)

/-- Rule R65, only its part on reads, with the answer held as in log entry 2: a read changes nothing in the block, so the same
read repeated answers the same. -/
def Obligations.ReadsHaveNoSideEffects : Prop :=
  ∀ (s : State) (size size' : AccessSize) (off off' : BitVec 8),
    (∃ r, hostTurn (.busRead size off) s = { s with reply := some r }) ∧
    busRead size' off' (hostTurn (.busRead size off) s) = busRead size' off' s

/-- Rule R45: the interrupt line. -/
def Obligations.InterruptLineIsALevel : Prop :=
  ∀ s : State, irq s = true ↔ (s.done = true ∧ s.die = true) ∨ (s.err = true ∧ s.eie = true)

/-- From rules R21, R24 and R39: what the host cannot do: a host step that is no reset leaves OBUF and OLEN, sets neither DONE,
ERR nor ECODE, and changes CMDW only by an accept, which BUSY = 0 and ERR = 0 precede. -/
def Obligations.HostStepFrame : Prop :=
  ∀ (s : State) (a : HostAction), ¬ IsReset a →
    (hostTurn a s).obuf = s.obuf ∧ (hostTurn a s).olen = s.olen ∧
    ((hostTurn a s).done = true → s.done = true) ∧ ((hostTurn a s).err = true → s.err = true) ∧
    ((hostTurn a s).ecode = s.ecode ∨ (hostTurn a s).ecode = 0) ∧
    (s.busy = true → (hostTurn a s).busy = true ∧ (hostTurn a s).ibuf = s.ibuf ∧ (hostTurn a s).ilen = s.ilen) ∧
    ((hostTurn a s).cmdw = s.cmdw ∧ (hostTurn a s).busy = s.busy ∨
      s.busy = false ∧ s.err = false ∧ (hostTurn a s).busy = true ∧ (hostTurn a s).done = false)

/-! ## Errors, acknowledge and reset -/

/-- Rule R240: a write of 1 to STATUS bit 2 ends the error state and nothing is restored; commands are accepted again; a soft
reset ends it too and clears everything else. -/
def Obligations.AcknowledgeEndsTheErrorState : Prop :=
  (∀ (s : State) (w : Word), w.getLsbD 2 = true → ∃ t, busWrite .word 0x0C w s = t ∧ t.err = false ∧ t.ecode = 0 ∧
    t.obuf = s.obuf ∧ t.olen = s.olen ∧ t.ibuf = s.ibuf ∧ t.ilen = s.ilen ∧
    (s.busy = false → ∀ c : Word, (busWrite .word 0x10 c t).busy = true ∧ (busWrite .word 0x10 c t).cmdw = c)) ∧
  (∀ (s : State) (w : Word), w.getLsbD 31 = true → AtReset (busWrite .word 0x08 w s))

/-- Rule R241: while ERR = 1 a write to CMD is dropped; the error record outlives every turn of either agent but the host's
acknowledge and a reset; writes to IBUF, ILEN, CTRL and STATUS are accepted. -/
def Obligations.ErrorRecordIsKeptUntilAcknowledged : Prop :=
  (∀ (s : State) (w : Word), s.err = true → busWrite .word 0x10 w s = { s with drop := true }) ∧
  (∀ (s t : State) (u : Turn), Inv s → s.err = true → takeTurn u s = .next t →
    (t.err = true ∧ t.ecode = s.ecode) ∨ ∃ a, u = .host a ∧ (IsErrorAcknowledge a ∨ IsReset a)) ∧
  (∀ (s : State) (w : Word), Inv s → s.err = true →
    busWrite .word 0x14 w s = { s with ilen := w.extractLsb' 0 8 } ∧
    (∀ (j : Fin 16) (i : Nat) (h : i < 4),
      (busWrite .word (BitVec.ofNat 8 (0x40 + 4 * j.val)) w s).ibuf[4 * j.val + i] = w.extractLsb' (8 * i) 8) ∧
    (w.getLsbD 31 = false → busWrite .word 0x08 w s = { s with die := w.getLsbD 0, eie := w.getLsbD 1 }) ∧
    (w.getLsbD 2 = true → (busWrite .word 0x0C w s).err = false) ∧
    (w.getLsbD 3 = true → (busWrite .word 0x0C w s).drop = false))

/-- Rule R47: after hardware reset and after soft reset, from any state, and in `State.reset`, every piece of state has its reset
value, the interrupt line is low and ID and CAP read as ever. -/
def Obligations.ResetValues : Prop :=
  (AtReset State.reset) ∧
  (∀ (s : State) (a : HostAction), IsReset a → AtReset (hostTurn a s)) ∧
  (∀ t : State, AtReset t → irq t = false ∧ busRead .word 0x00 t = .data 0x48313630 ∧ busRead .word 0x04 t = .data 0x010B5840 ∧
    engineTurn t = .next t)

/-- Rule R262: a soft reset has exactly the effect of `HardReset` on the block, whatever the other bits and the state; it is
answered Okay and CTRL reads zero afterwards; no other bus access ends a running command, and while BUSY = 1 every other write
but those to STATUS and CTRL changes DROP at most. -/
def Obligations.SoftResetEqualsHardReset : Prop :=
  (∀ (s : State) (w : Word), w.getLsbD 31 = true →
    busWrite .word 0x08 w s = hostTurn .hardReset s ∧ busWriteReply .word 0x08 = .okay ∧
      busRead .word 0x08 (busWrite .word 0x08 w s) = .data 0) ∧
  (∀ (s : State) (a : HostAction), s.busy = true → (hostTurn a s).busy = false → IsReset a) ∧
  (∀ (s : State) (size : AccessSize) (off : BitVec 8) (w : Word), s.busy = true → off ≠ 0x08 → off ≠ 0x0C →
    busWrite size off w s = s ∨ busWrite size off w s = { s with drop := true })

/-! ## Order and progress -/

/-- The fairness of rule R275. Over the agenda of log entry 1: from every state with BUSY = 1, BUSY falls within as many steps
as the agenda has turns, and one more. Over the placements of log entry 9: every `WAIT` ends with BUSY = 0, and a `RUN` from an
idle block without error ends in the next state of its command, with the last poll's STATUS on the bus, whatever the number of
polls, one included. -/
def Obligations.PendingCommandEnds : Prop :=
  (∀ s : State, s.busy = true →
    ∃ k t, k ≤ s.agenda.length + 1 ∧ Host.Core.run Sys2Proof.core k s = .next t ∧ t.busy = false) ∧
  (∀ r : ScriptRun, (Stmt.wait.execute r).state.busy = false) ∧
  (∀ (r : ScriptRun) (i : Instr), r.state.busy = false → r.state.err = false →
    ∃ t, exec i { r.state with cmdw := encode i, busy := true, done := false } = .next t ∧
      ((Stmt.run i).execute r).state = { t with reply := some (.data (statusWord t)) })

/-- The first order of rule R75 over the agenda of log entry 1: with the host's write to STATUS before the completion, the flag
the completion sets survives. -/
def Obligations.CompletionFlagSurvivesAcknowledge : Prop :=
  ∀ (s : State) (w : Word) (ts : List Turn), s.busy = true →
    s.agenda = .host (.busWrite .word 0x0C w) :: .engine :: ts →
    ∃ t, Host.Core.run Sys2Proof.core 2 s = .next t ∧ (t.done = true ∨ t.err = true)

/-- From rules R110, R111 and R112 (the last marked derived by the spec), at every point of a run and under every placement of
the engine's steps; `r.ready.state` is what the statement's first access finds, and OLEN is at most 88. Each pseudo-statement
is the accesses of its row in rule R111: `RUN` is `CMD` then `WAIT`; `WAIT` reads STATUS once when that finds BUSY = 0, else
once and waits again. The primitive statements are one access each (rule R110).
The model's choice, log entry 9: the placements, so that every `WAIT` ends and that every statement keeps a run one of the
machine. The model's choice, log entry 16: the range of that last clause over every `Stmt`, `awaitIrq` among them, and that a
`LOAD` has at most 64 bytes. What `CMD` and `LOAD` leave rests on rule R112, where it lets them be issued. -/
def Obligations.ScriptStatementsAreTheirAccesses : Prop :=
  ∀ r : ScriptRun,
    (∀ (x : Reg) (w : Word), ((Stmt.wr x w).execute r).encoding = r.encoding ++ [.write x.offset w] ∧
      ((Stmt.rd x).execute r).encoding = r.encoding ++ [.read x.offset (readReg r.ready.state x)] ∧
      (Stmt.rdExpect x w).execute r = (Stmt.rd x).execute r) ∧
    (∀ b : Bytes, b.length ≤ 64 → ((Stmt.load b).execute r).encoding = r.encoding ++
      ((List.range ((b.length + 3) / 4)).map fun j => .write (BitVec.ofNat 8 (0x40 + 4 * j)) (leWord b j)) ++
      [.write 0x14 (BitVec.ofNat 32 b.length)]) ∧
    (∀ i : Instr, ((Stmt.cmd i).execute r).encoding = r.encoding ++ [.write 0x10 (encode i)] ∧
      (Stmt.run i).execute r = Stmt.wait.execute ((Stmt.cmd i).execute r)) ∧
    (((Stmt.rd .status).execute r).encoding = r.encoding ++ [.read 0x0C (statusWord r.ready.state)] ∧
      (r.ready.state.busy = false → Stmt.wait.execute r = (Stmt.rd .status).execute r) ∧
      (r.ready.state.busy = true → Stmt.wait.execute r = Stmt.wait.execute ((Stmt.rd .status).execute r)) ∧
      (Stmt.wait.execute r).state.busy = false) ∧
    (∀ d e p : Bool, ((Stmt.ack d e p).execute r).encoding = r.encoding ++
      [.write 0x0C ((if d then 0x2 else 0) + (if e then 0x4 else 0) + (if p then 0x8 else 0))]) ∧
    (∀ n : Nat, n ≤ 88 → readReg r.ready.state .olen = BitVec.ofNat 32 n →
      (Stmt.unload.execute r).encoding = r.encoding ++ .read 0x18 (BitVec.ofNat 32 n) ::
        (List.range ((n + 3) / 4)).map fun j => .read (BitVec.ofNat 8 (0x80 + 4 * j)) (leWord r.ready.state.obuf.toList j)) ∧
    (Stmt.srst.execute r).encoding = r.encoding ++ [.write 0x08 0x80000000] ∧
    (∀ (s : State) (st : Stmt), r.IsRunFrom s → (st.execute r).IsRunFrom s) ∧
    (∀ i : Instr, r.ready.state.busy = false → r.ready.state.err = false →
      ∃ t, t = ((Stmt.cmd i).execute r).state ∧ t.busy = true ∧ t.cmdw = encode i ∧ t.done = false ∧ t.drop = r.ready.state.drop) ∧
    (∀ b : Bytes, b.length ≤ 64 → r.ready.state.busy = false →
      ∃ t, t = ((Stmt.load b).execute r).state ∧ t.ibuf.toList.take t.ilen.toNat = b ∧ t.ilen.toNat = b.length ∧
        t.drop = r.ready.state.drop ∧ t.obuf = r.ready.state.obuf ∧ t.olen = r.ready.state.olen)

/-- Rule R60, its addresses, with BASE as in log entry 4: the address BASE + off is the offset `off` of the window, and no
address outside the 256 bytes is in it. -/
def Obligations.WindowAddresses : Prop :=
  (∀ (base : Nat) (off : BitVec 8), windowOffset base (base + off.toNat) = some off) ∧
  (∀ base addr : Nat, addr < base ∨ base + 0xFF < addr → windowOffset base addr = none)
end

