-- ==== Sys2Proof/Laws/State.lean ====
section
/-! SUPPORT. One lemma per field per named update of State, each true by definition (those that fill a buffer are unfolded first, lest rfl
evaluate its bytes), so that no proof unfolds a record update; and
the fields of the state after reset. -/

namespace Sys2Proof.Machine

/-! ## `commitOk`, rule R41 -/

@[simp] theorem commitOk_ibuf (out : Bytes) (s : State) : (commitOk out s).ibuf = s.ibuf := by simp only [commitOk]
@[simp] theorem commitOk_ilen (out : Bytes) (s : State) : (commitOk out s).ilen = s.ilen := by simp only [commitOk]
@[simp] theorem commitOk_obuf (out : Bytes) (s : State) : (commitOk out s).obuf = padTo 88 out := by simp only [commitOk]
@[simp] theorem commitOk_olen (out : Bytes) (s : State) : (commitOk out s).olen = BitVec.ofNat 8 out.length := by simp only [commitOk]
@[simp] theorem commitOk_cmdw (out : Bytes) (s : State) : (commitOk out s).cmdw = s.cmdw := by simp only [commitOk]
@[simp] theorem commitOk_busy (out : Bytes) (s : State) : (commitOk out s).busy = false := by simp only [commitOk]
@[simp] theorem commitOk_done (out : Bytes) (s : State) : (commitOk out s).done = true := by simp only [commitOk]
@[simp] theorem commitOk_err (out : Bytes) (s : State) : (commitOk out s).err = s.err := by simp only [commitOk]
@[simp] theorem commitOk_ecode (out : Bytes) (s : State) : (commitOk out s).ecode = s.ecode := by simp only [commitOk]
@[simp] theorem commitOk_drop (out : Bytes) (s : State) : (commitOk out s).drop = s.drop := by simp only [commitOk]
@[simp] theorem commitOk_die (out : Bytes) (s : State) : (commitOk out s).die = s.die := by simp only [commitOk]
@[simp] theorem commitOk_eie (out : Bytes) (s : State) : (commitOk out s).eie = s.eie := by simp only [commitOk]
@[simp] theorem commitOk_agenda (out : Bytes) (s : State) : (commitOk out s).agenda = s.agenda := by simp only [commitOk]
@[simp] theorem commitOk_reply (out : Bytes) (s : State) : (commitOk out s).reply = s.reply := by simp only [commitOk]

/-! ## `commitKeep`, rule R42 -/

@[simp] theorem commitKeep_ibuf (s : State) : (commitKeep s).ibuf = s.ibuf := rfl
@[simp] theorem commitKeep_ilen (s : State) : (commitKeep s).ilen = s.ilen := rfl
@[simp] theorem commitKeep_obuf (s : State) : (commitKeep s).obuf = s.obuf := rfl
@[simp] theorem commitKeep_olen (s : State) : (commitKeep s).olen = s.olen := rfl
@[simp] theorem commitKeep_cmdw (s : State) : (commitKeep s).cmdw = s.cmdw := rfl
@[simp] theorem commitKeep_busy (s : State) : (commitKeep s).busy = false := rfl
@[simp] theorem commitKeep_done (s : State) : (commitKeep s).done = true := rfl
@[simp] theorem commitKeep_err (s : State) : (commitKeep s).err = s.err := rfl
@[simp] theorem commitKeep_ecode (s : State) : (commitKeep s).ecode = s.ecode := rfl
@[simp] theorem commitKeep_drop (s : State) : (commitKeep s).drop = s.drop := rfl
@[simp] theorem commitKeep_die (s : State) : (commitKeep s).die = s.die := rfl
@[simp] theorem commitKeep_eie (s : State) : (commitKeep s).eie = s.eie := rfl
@[simp] theorem commitKeep_agenda (s : State) : (commitKeep s).agenda = s.agenda := rfl
@[simp] theorem commitKeep_reply (s : State) : (commitKeep s).reply = s.reply := rfl

/-! ## `raise`, rule R236 -/

@[simp] theorem raise_ibuf (e : CmdError) (s : State) : (raise e s).ibuf = s.ibuf := by simp only [raise]
@[simp] theorem raise_ilen (e : CmdError) (s : State) : (raise e s).ilen = s.ilen := by simp only [raise]
@[simp] theorem raise_obuf (e : CmdError) (s : State) : (raise e s).obuf = padTo 88 [] := by simp only [raise]
@[simp] theorem raise_olen (e : CmdError) (s : State) : (raise e s).olen = 0 := by simp only [raise]
@[simp] theorem raise_cmdw (e : CmdError) (s : State) : (raise e s).cmdw = s.cmdw := by simp only [raise]
@[simp] theorem raise_busy (e : CmdError) (s : State) : (raise e s).busy = false := by simp only [raise]
@[simp] theorem raise_done (e : CmdError) (s : State) : (raise e s).done = s.done := by simp only [raise]
@[simp] theorem raise_err (e : CmdError) (s : State) : (raise e s).err = true := by simp only [raise]
@[simp] theorem raise_ecode (e : CmdError) (s : State) : (raise e s).ecode = e.code := by simp only [raise]
@[simp] theorem raise_drop (e : CmdError) (s : State) : (raise e s).drop = s.drop := by simp only [raise]
@[simp] theorem raise_die (e : CmdError) (s : State) : (raise e s).die = s.die := by simp only [raise]
@[simp] theorem raise_eie (e : CmdError) (s : State) : (raise e s).eie = s.eie := by simp only [raise]
@[simp] theorem raise_agenda (e : CmdError) (s : State) : (raise e s).agenda = s.agenda := by simp only [raise]
@[simp] theorem raise_reply (e : CmdError) (s : State) : (raise e s).reply = s.reply := by simp only [raise]

/-! ## `acknowledge`, rule R28 -/

@[simp] theorem acknowledge_ibuf (w : Word) (s : State) : (acknowledge w s).ibuf = s.ibuf := rfl
@[simp] theorem acknowledge_ilen (w : Word) (s : State) : (acknowledge w s).ilen = s.ilen := rfl
@[simp] theorem acknowledge_obuf (w : Word) (s : State) : (acknowledge w s).obuf = s.obuf := rfl
@[simp] theorem acknowledge_olen (w : Word) (s : State) : (acknowledge w s).olen = s.olen := rfl
@[simp] theorem acknowledge_cmdw (w : Word) (s : State) : (acknowledge w s).cmdw = s.cmdw := rfl
@[simp] theorem acknowledge_busy (w : Word) (s : State) : (acknowledge w s).busy = s.busy := rfl
@[simp] theorem acknowledge_done (w : Word) (s : State) : (acknowledge w s).done = (s.done && !w.getLsbD 1) := rfl
@[simp] theorem acknowledge_err (w : Word) (s : State) : (acknowledge w s).err = (s.err && !w.getLsbD 2) := rfl
@[simp] theorem acknowledge_ecode (w : Word) (s : State) : (acknowledge w s).ecode = if w.getLsbD 2 then 0 else s.ecode := rfl
@[simp] theorem acknowledge_drop (w : Word) (s : State) : (acknowledge w s).drop = (s.drop && !w.getLsbD 3) := rfl
@[simp] theorem acknowledge_die (w : Word) (s : State) : (acknowledge w s).die = s.die := rfl
@[simp] theorem acknowledge_eie (w : Word) (s : State) : (acknowledge w s).eie = s.eie := rfl
@[simp] theorem acknowledge_agenda (w : Word) (s : State) : (acknowledge w s).agenda = s.agenda := rfl
@[simp] theorem acknowledge_reply (w : Word) (s : State) : (acknowledge w s).reply = s.reply := rfl

/-! ## `resetBlock`, rules R260 and R262 -/

@[simp] theorem resetBlock_ibuf (s : State) : (resetBlock s).ibuf = State.reset.ibuf := rfl
@[simp] theorem resetBlock_ilen (s : State) : (resetBlock s).ilen = State.reset.ilen := rfl
@[simp] theorem resetBlock_obuf (s : State) : (resetBlock s).obuf = State.reset.obuf := rfl
@[simp] theorem resetBlock_olen (s : State) : (resetBlock s).olen = State.reset.olen := rfl
@[simp] theorem resetBlock_cmdw (s : State) : (resetBlock s).cmdw = State.reset.cmdw := rfl
@[simp] theorem resetBlock_busy (s : State) : (resetBlock s).busy = State.reset.busy := rfl
@[simp] theorem resetBlock_done (s : State) : (resetBlock s).done = State.reset.done := rfl
@[simp] theorem resetBlock_err (s : State) : (resetBlock s).err = State.reset.err := rfl
@[simp] theorem resetBlock_ecode (s : State) : (resetBlock s).ecode = State.reset.ecode := rfl
@[simp] theorem resetBlock_drop (s : State) : (resetBlock s).drop = State.reset.drop := rfl
@[simp] theorem resetBlock_die (s : State) : (resetBlock s).die = State.reset.die := rfl
@[simp] theorem resetBlock_eie (s : State) : (resetBlock s).eie = State.reset.eie := rfl
@[simp] theorem resetBlock_agenda (s : State) : (resetBlock s).agenda = s.agenda := rfl
@[simp] theorem resetBlock_reply (s : State) : (resetBlock s).reply = s.reply := rfl

/-! ## `dropWrite`, rule R38 -/

@[simp] theorem dropWrite_ibuf (s : State) : (dropWrite s).ibuf = s.ibuf := rfl
@[simp] theorem dropWrite_ilen (s : State) : (dropWrite s).ilen = s.ilen := rfl
@[simp] theorem dropWrite_obuf (s : State) : (dropWrite s).obuf = s.obuf := rfl
@[simp] theorem dropWrite_olen (s : State) : (dropWrite s).olen = s.olen := rfl
@[simp] theorem dropWrite_cmdw (s : State) : (dropWrite s).cmdw = s.cmdw := rfl
@[simp] theorem dropWrite_busy (s : State) : (dropWrite s).busy = s.busy := rfl
@[simp] theorem dropWrite_done (s : State) : (dropWrite s).done = s.done := rfl
@[simp] theorem dropWrite_err (s : State) : (dropWrite s).err = s.err := rfl
@[simp] theorem dropWrite_ecode (s : State) : (dropWrite s).ecode = s.ecode := rfl
@[simp] theorem dropWrite_drop (s : State) : (dropWrite s).drop = true := rfl
@[simp] theorem dropWrite_die (s : State) : (dropWrite s).die = s.die := rfl
@[simp] theorem dropWrite_eie (s : State) : (dropWrite s).eie = s.eie := rfl
@[simp] theorem dropWrite_agenda (s : State) : (dropWrite s).agenda = s.agenda := rfl
@[simp] theorem dropWrite_reply (s : State) : (dropWrite s).reply = s.reply := rfl

/-! ## `popTurn` -/

@[simp] theorem popTurn_ibuf (s : State) : (popTurn s).ibuf = s.ibuf := rfl
@[simp] theorem popTurn_ilen (s : State) : (popTurn s).ilen = s.ilen := rfl
@[simp] theorem popTurn_obuf (s : State) : (popTurn s).obuf = s.obuf := rfl
@[simp] theorem popTurn_olen (s : State) : (popTurn s).olen = s.olen := rfl
@[simp] theorem popTurn_cmdw (s : State) : (popTurn s).cmdw = s.cmdw := rfl
@[simp] theorem popTurn_busy (s : State) : (popTurn s).busy = s.busy := rfl
@[simp] theorem popTurn_done (s : State) : (popTurn s).done = s.done := rfl
@[simp] theorem popTurn_err (s : State) : (popTurn s).err = s.err := rfl
@[simp] theorem popTurn_ecode (s : State) : (popTurn s).ecode = s.ecode := rfl
@[simp] theorem popTurn_drop (s : State) : (popTurn s).drop = s.drop := rfl
@[simp] theorem popTurn_die (s : State) : (popTurn s).die = s.die := rfl
@[simp] theorem popTurn_eie (s : State) : (popTurn s).eie = s.eie := rfl
@[simp] theorem popTurn_agenda (s : State) : (popTurn s).agenda = s.agenda.tail := rfl
@[simp] theorem popTurn_reply (s : State) : (popTurn s).reply = s.reply := rfl

/-! ## `pendingCommand`, rule R39 -/

@[simp] theorem pendingCommand_ibuf (w : Word) (s : State) : (pendingCommand w s).ibuf = s.ibuf := rfl
@[simp] theorem pendingCommand_ilen (w : Word) (s : State) : (pendingCommand w s).ilen = s.ilen := rfl
@[simp] theorem pendingCommand_obuf (w : Word) (s : State) : (pendingCommand w s).obuf = s.obuf := rfl
@[simp] theorem pendingCommand_olen (w : Word) (s : State) : (pendingCommand w s).olen = s.olen := rfl
@[simp] theorem pendingCommand_cmdw (w : Word) (s : State) : (pendingCommand w s).cmdw = w := rfl
@[simp] theorem pendingCommand_busy (w : Word) (s : State) : (pendingCommand w s).busy = true := rfl
@[simp] theorem pendingCommand_done (w : Word) (s : State) : (pendingCommand w s).done = false := rfl
@[simp] theorem pendingCommand_err (w : Word) (s : State) : (pendingCommand w s).err = false := rfl
@[simp] theorem pendingCommand_ecode (w : Word) (s : State) : (pendingCommand w s).ecode = 0 := rfl
@[simp] theorem pendingCommand_drop (w : Word) (s : State) : (pendingCommand w s).drop = s.drop := rfl
@[simp] theorem pendingCommand_die (w : Word) (s : State) : (pendingCommand w s).die = s.die := rfl
@[simp] theorem pendingCommand_eie (w : Word) (s : State) : (pendingCommand w s).eie = s.eie := rfl
@[simp] theorem pendingCommand_agenda (w : Word) (s : State) : (pendingCommand w s).agenda = .engine :: s.agenda := rfl
@[simp] theorem pendingCommand_reply (w : Word) (s : State) : (pendingCommand w s).reply = s.reply := rfl

/-! ## `moveOutput`, rule R222 -/

@[simp] theorem moveOutput_ibuf (s : State) : (moveOutput s).ibuf = padTo 64 (outBytes s) := by simp only [moveOutput]
@[simp] theorem moveOutput_ilen (s : State) : (moveOutput s).ilen = s.olen := by simp only [moveOutput]
@[simp] theorem moveOutput_obuf (s : State) : (moveOutput s).obuf = s.obuf := by simp only [moveOutput]
@[simp] theorem moveOutput_olen (s : State) : (moveOutput s).olen = s.olen := by simp only [moveOutput]
@[simp] theorem moveOutput_cmdw (s : State) : (moveOutput s).cmdw = s.cmdw := by simp only [moveOutput]
@[simp] theorem moveOutput_busy (s : State) : (moveOutput s).busy = s.busy := by simp only [moveOutput]
@[simp] theorem moveOutput_done (s : State) : (moveOutput s).done = s.done := by simp only [moveOutput]
@[simp] theorem moveOutput_err (s : State) : (moveOutput s).err = s.err := by simp only [moveOutput]
@[simp] theorem moveOutput_ecode (s : State) : (moveOutput s).ecode = s.ecode := by simp only [moveOutput]
@[simp] theorem moveOutput_drop (s : State) : (moveOutput s).drop = s.drop := by simp only [moveOutput]
@[simp] theorem moveOutput_die (s : State) : (moveOutput s).die = s.die := by simp only [moveOutput]
@[simp] theorem moveOutput_eie (s : State) : (moveOutput s).eie = s.eie := by simp only [moveOutput]
@[simp] theorem moveOutput_agenda (s : State) : (moveOutput s).agenda = s.agenda := by simp only [moveOutput]
@[simp] theorem moveOutput_reply (s : State) : (moveOutput s).reply = s.reply := by simp only [moveOutput]

/-! ## State.reset, rule R47 -/

@[simp] theorem reset_ibuf : State.reset.ibuf = Vector.replicate 64 0 := rfl
@[simp] theorem reset_ilen : State.reset.ilen = 0 := rfl
@[simp] theorem reset_obuf : State.reset.obuf = Vector.replicate 88 0 := rfl
@[simp] theorem reset_olen : State.reset.olen = 0 := rfl
@[simp] theorem reset_cmdw : State.reset.cmdw = 0 := rfl
@[simp] theorem reset_busy : State.reset.busy = false := rfl
@[simp] theorem reset_done : State.reset.done = false := rfl
@[simp] theorem reset_err : State.reset.err = false := rfl
@[simp] theorem reset_ecode : State.reset.ecode = 0 := rfl
@[simp] theorem reset_drop : State.reset.drop = false := rfl
@[simp] theorem reset_die : State.reset.die = false := rfl
@[simp] theorem reset_eie : State.reset.eie = false := rfl
@[simp] theorem reset_agenda : State.reset.agenda = [] := rfl
@[simp] theorem reset_reply : State.reset.reply = none := rfl

end Sys2Proof.Machine
end

