-- ==== Sys2Proof/Laws/Bytes.lean ====
section
/-! SUPPORT. Byte strings, buffers and bus lanes: what each helper of Machine/Operands.lean does, once. -/

namespace Sys2Proof.Machine

@[simp] theorem padTo_getElem (n : Nat) (b : Bytes) (i : Nat) (h : i < n) : (padTo n b)[i] = b.getD i 0 := by
  simp [padTo]

/-- The bytes of a padded buffer below the string's length are the string. -/
theorem take_padTo (n : Nat) (b : Bytes) (h : b.length ≤ n) : (padTo n b).toList.take b.length = b := by
  apply List.ext_getElem
  · simp [h]
  · intro i h1 h2
    simp [padTo, h2]

/-- The input string is as long as ILEN says when ILEN fits in the buffer. -/
theorem inBytes_length (s : State) (h : s.ilen.toNat ≤ 64) : (inBytes s).length = s.ilen.toNat := by
  simp [inBytes, h]

theorem inBytes_length_le (s : State) : (inBytes s).length ≤ 64 := by
  simp [inBytes]

/-! ## Big-endian value -/

@[simp] theorem be_nil : be [] = 0 := rfl

theorem be_concat (b : Bytes) (x : Byte) : be (b ++ [x]) = 256 * be b + x.toNat := by
  simp [be]

theorem be_append (a b : Bytes) : be (a ++ b) = be a * 256 ^ b.length + be b := by
  induction b using List.reverseRecOn with
  | nil => simp
  | append_singleton b x ih =>
    rw [← List.append_assoc, be_concat, ih, be_concat, List.length_append, List.length_singleton, pow_succ]
    ring

theorem be_cons (x : Byte) (b : Bytes) : be (x :: b) = x.toNat * 256 ^ b.length + be b := by
  have h := be_append [x] b
  simpa [be] using h

theorem be_lt (b : Bytes) : be b < 256 ^ b.length := by
  induction b with
  | nil => simp
  | cons x b ih =>
    rw [be_cons, List.length_cons, pow_succ]
    have : x.toNat < 256 := x.isLt
    nlinarith [Nat.one_le_pow b.length 256 (by norm_num)]

/-! ## Words and their bytes -/

theorem wordByte_wordOfBytes (b0 b1 b2 b3 : Byte) :
    wordByte (wordOfBytes b0 b1 b2 b3) 0 = b3 ∧ wordByte (wordOfBytes b0 b1 b2 b3) 1 = b2 ∧
      wordByte (wordOfBytes b0 b1 b2 b3) 2 = b1 ∧ wordByte (wordOfBytes b0 b1 b2 b3) 3 = b0 := by
  refine ⟨?_, ?_, ?_, ?_⟩ <;>
  · apply BitVec.eq_of_getLsbD_eq
    intro i hi
    simp only [wordByte, wordOfBytes, BitVec.getLsbD_extractLsb', BitVec.getLsbD_append]
    have : i = 0 ∨ i = 1 ∨ i = 2 ∨ i = 3 ∨ i = 4 ∨ i = 5 ∨ i = 6 ∨ i = 7 := by omega
    rcases this with h | h | h | h | h | h | h | h <;> subst h <;> simp

theorem wordOfBytes_wordByte (w : Word) :
    wordOfBytes (wordByte w 3) (wordByte w 2) (wordByte w 1) (wordByte w 0) = w := by
  apply BitVec.eq_of_getLsbD_eq
  intro i hi
  simp only [wordByte, wordOfBytes, BitVec.getLsbD_extractLsb', BitVec.getLsbD_append]
  interval_cases i <;> simp

@[simp] theorem be32_length (x : Word) : (be32 x).length = 4 := rfl

@[simp] theorem le32_length (x : Word) : (le32 x).length = 4 := rfl

@[simp] theorem le64_length (n : Nat) : (le64 n).length = 8 := by simp [le64]

@[simp] theorem be64_length (n : Nat) : (be64 n).length = 8 := by simp [be64]

/-! ## Bus lanes -/

@[simp] theorem writeLanes_getElem {n : Nat} (v : Vector Byte n) (j : Nat) (w : Word) (i : Nat) (h : i < n) :
    (writeLanes v j w)[i] = if i / 4 = j then wordByte w (i % 4) else v[i] := by
  simp [writeLanes]

/-- The word a buffer reads as, from the four bytes of its lanes. -/
theorem readLanes_eq {n : Nat} (v : Vector Byte n) (j : Nat) (h : 4 * j + 3 < n) :
    readLanes v j = wordOfBytes v[4 * j + 3] v[4 * j + 2] v[4 * j + 1] v[4 * j] := by
  have h0 : 4 * j < n := by omega
  have h1 : 4 * j + 1 < n := by omega
  have h2 : 4 * j + 2 < n := by omega
  simp [readLanes, leWord, List.getD_eq_getElem?_getD, h, h0, h1, h2]

/-- A word written is the word read. -/
theorem readLanes_writeLanes {n : Nat} (v : Vector Byte n) (j : Nat) (w : Word) (h : 4 * j + 3 < n) :
    readLanes (writeLanes v j w) j = w := by
  rw [readLanes_eq _ _ h]
  simp only [writeLanes_getElem]
  have e0 : (4 * j) / 4 = j := by omega
  have e1 : (4 * j + 1) / 4 = j := by omega
  have e2 : (4 * j + 2) / 4 = j := by omega
  have e3 : (4 * j + 3) / 4 = j := by omega
  have m0 : (4 * j) % 4 = 0 := by omega
  have m1 : (4 * j + 1) % 4 = 1 := by omega
  have m2 : (4 * j + 2) % 4 = 2 := by omega
  have m3 : (4 * j + 3) % 4 = 3 := by omega
  simp only [e0, e1, e2, e3, m0, m1, m2, m3, if_true]
  exact wordOfBytes_wordByte w

/-- A word written leaves every other word alone. -/
theorem readLanes_writeLanes_other {n : Nat} (v : Vector Byte n) (j k : Nat) (w : Word) (h : 4 * k + 3 < n) (hne : k ≠ j) :
    readLanes (writeLanes v j w) k = readLanes v k := by
  rw [readLanes_eq _ _ h, readLanes_eq _ _ h]
  simp only [writeLanes_getElem]
  have e0 : (4 * k) / 4 ≠ j := by omega
  have e1 : (4 * k + 1) / 4 ≠ j := by omega
  have e2 : (4 * k + 2) / 4 ≠ j := by omega
  have e3 : (4 * k + 3) / 4 ≠ j := by omega
  simp only [e0, e1, e2, e3, if_false]

/-! ## Address map -/

/-- The register at a register's offset is that register. -/
theorem regAt_offset (r : Reg) : regAt r.offset = r := by
  cases r with
  | ibuf j => revert j; decide
  | obuf j => revert j; decide
  | _ => rfl

/-- Every register's offset is a multiple of 4, so a 32-bit access to it is accepted. -/
theorem accepted_offset (r : Reg) : accepted .word r.offset = true := by
  cases r with
  | ibuf j => revert j; decide
  | obuf j => revert j; decide
  | _ => rfl

end Sys2Proof.Machine
end

