-- ==== Sys2Proof/Laws/Base58.lean ====
section
/-! SUPPORT. The base58 loop: its bound on iterations never matters, one division peels off the last digit, and the number of
digits follows from the size of the number. -/

namespace Sys2Proof.Machine

theorem base58Loop_acc (fuel v : Nat) (ds : List Nat) : base58Loop fuel v ds = base58Loop fuel v [] ++ ds := by
  induction fuel generalizing v ds with
  | zero => rfl
  | succ n ih =>
    simp only [base58Loop]
    split
    · rfl
    · rw [ih, ih (v / 58) [v % 58], List.append_assoc]; rfl

/-- Any bound from `v` up gives the same digits. -/
theorem base58Loop_fuel (n m v : Nat) (hn : v ≤ n) (hm : v ≤ m) (ds : List Nat) : base58Loop n v ds = base58Loop m v ds := by
  induction n generalizing m v ds with
  | zero =>
    obtain rfl : v = 0 := by omega
    cases m <;> simp [base58Loop]
  | succ n ih =>
    cases m with
    | zero => obtain rfl : v = 0 := by omega
              simp [base58Loop]
    | succ m =>
      simp only [base58Loop]
      split
      · rfl
      · exact ih m (v / 58) (by omega) (by omega) _

@[simp] theorem base58Digits_zero : base58Digits 0 = [] := rfl

/-- One pass of the loop of rule R190: the remainder is the last digit, the quotient gives the digits before it. -/
theorem base58Digits_pos (v : Nat) (h : 0 < v) : base58Digits v = base58Digits (v / 58) ++ [v % 58] := by
  obtain ⟨n, rfl⟩ : ∃ n, v = n + 1 := ⟨v - 1, by omega⟩
  rw [base58Digits, base58Loop, if_neg (by omega), base58Loop_acc, base58Digits,
    base58Loop_fuel n ((n + 1) / 58) ((n + 1) / 58) (by omega) (le_refl _)]

/-- A number below 58^k has at most k digits. -/
theorem base58Digits_length_le (k v : Nat) (h : v < 58 ^ k) : (base58Digits v).length ≤ k := by
  induction k generalizing v with
  | zero => obtain rfl : v = 0 := by simpa using h
            simp
  | succ k ih =>
    rcases Nat.eq_zero_or_pos v with rfl | hv
    · simp
    · rw [base58Digits_pos v hv, List.length_append, List.length_singleton]
      exact Nat.succ_le_succ (ih _ (Nat.div_lt_of_lt_mul (by rwa [pow_succ, mul_comm] at h)))

/-- A number of 58^k and above has more than k digits. -/
theorem lt_base58Digits_length (k v : Nat) (h : 58 ^ k ≤ v) : k < (base58Digits v).length := by
  induction k generalizing v with
  | zero => rw [base58Digits_pos v (by rw [pow_zero] at h; exact h)]; simp
  | succ k ih =>
    have hv : 0 < v := lt_of_lt_of_le (by positivity) h
    rw [base58Digits_pos v hv, List.length_append, List.length_singleton]
    exact Nat.succ_lt_succ (ih _ ((Nat.le_div_iff_mul_le (by norm_num)).2 (by rwa [pow_succ] at h)))

@[simp] theorem b58_length (b : Bytes) : (b58 b).length = (base58Digits (be b)).length := by
  simp only [b58, List.length_map]

/-- No input of at most 64 bytes gives more than 88 characters (rule R197). -/
theorem b58_length_le (b : Bytes) (h : b.length ≤ 64) : (b58 b).length ≤ 88 := by
  rw [b58_length]
  refine base58Digits_length_le 88 _ (lt_of_lt_of_le (be_lt b) ?_)
  exact (Nat.pow_le_pow_right (by norm_num) h).trans (by norm_num)

end Sys2Proof.Machine
end

