-- ==== Sys2Proof/Laws/Hash.lean ====
section
/-! SUPPORT. Lengths of digests, padded messages, checksums and payloads. -/

namespace Sys2Proof.Machine

@[simp] theorem shaDigest_length (v : ShaVars) : (shaDigest v).length = 32 := rfl

@[simp] theorem sha256_length (m : Bytes) : (sha256 m).length = 32 := by simp only [sha256, shaDigest_length]

@[simp] theorem rmdDigest_length (v : RmdVars) : (rmdDigest v).length = 20 := rfl

@[simp] theorem rmd160_length (m : Bytes) : (rmd160 m).length = 20 := by simp only [rmd160, rmdDigest_length]

@[simp] theorem hash160_length (m : Bytes) : (hash160 m).length = 20 := by simp only [hash160, rmd160_length]

@[simp] theorem dsha256_length (m : Bytes) : (dsha256 m).length = 32 := by simp only [dsha256, sha256_length]

@[simp] theorem chksum_length (m : Bytes) : (chksum m).length = 4 := by
  simp only [chksum, List.length_take, dsha256_length]; rfl

@[simp] theorem sinPayload_length (d : Bytes) : (sinPayload d).length = d.length + 2 := rfl

@[simp] theorem sinAssemble_length (d : Bytes) : (sinAssemble d).length = d.length + 6 := by
  simp only [sinAssemble, List.length_append, sinPayload_length, chksum_length]

@[simp] theorem kcomp_length (p : Bytes) : (kcomp p).length = min 32 p.length + 1 := by
  simp only [kcomp, List.length_cons, List.length_take]

@[simp] theorem scheduleExtend_length (n : Nat) (ws : List Word) : (scheduleExtend n ws).length = n + ws.length := by
  induction n generalizing ws with
  | zero => simp [scheduleExtend]
  | succ n ih => simp only [scheduleExtend, ih, List.length_cons]; omega

@[simp] theorem schedule_length (b : Bytes) : (schedule b).length = 64 := by
  simp only [schedule, List.length_reverse, scheduleExtend_length, List.length_map, List.length_range]

theorem blocks_length (n : Nat) (m : Bytes) : (blocks n m).length = n := by
  induction n generalizing m with
  | zero => rfl
  | succ n ih => simp only [blocks, List.length_cons, ih]

end Sys2Proof.Machine
end

