-- ==== Sys2Proof/Laws/Ops.lean ====
section
/-! SUPPORT. Everything a shared operation can do, once: the commits meet the relations of Safety.lean, a command over a length
check takes one of two commits, a host write lands in the register it addresses. -/

namespace Sys2Proof.Machine

/-- `commitOk` is `commit_ok` of rule R41 for every string that fits. -/
theorem commitOk_commits (out : Bytes) (s : State) (h : out.length ≤ 88) : CommitsOk s (commitOk out s) out where
  fits := h
  obuf i hi := by
    simp only [commitOk_obuf, padTo_getElem, List.getD_eq_getElem?_getD]
    split
    · next h' => simp [h']
    · next h' => simp [not_lt.1 h']
  olen := by rw [commitOk_olen, BitVec.toNat_ofNat]; omega
  busy := rfl
  done := rfl
  err := commitOk_err out s
  ecode := commitOk_ecode out s
  ibuf := commitOk_ibuf out s
  ilen := commitOk_ilen out s
  controls :=
    ⟨commitOk_cmdw out s, commitOk_drop out s, commitOk_die out s, commitOk_eie out s, commitOk_agenda out s,
      commitOk_reply out s⟩

/-- `commitKeep` is `commit_keep` of rule R42. -/
theorem commitKeep_commits (s : State) : CommitsKeep s (commitKeep s) where
  obuf := rfl
  olen := rfl
  busy := rfl
  done := rfl
  err := rfl
  ecode := rfl
  controls := ⟨rfl, rfl, rfl, rfl, rfl, rfl⟩

/-- `raise` is the failed completion of rule R236. -/
theorem raise_commits (e : CmdError) (s : State) : CommitsError s (raise e s) e.code where
  obuf i hi := by simp only [raise_obuf, padTo_getElem, List.getD_nil]
  olen := raise_olen e s
  busy := rfl
  err := rfl
  ecode := raise_ecode e s
  done := raise_done e s
  ibuf := raise_ibuf e s
  ilen := raise_ilen e s
  controls := ⟨raise_cmdw e s, raise_drop e s, raise_die e s, raise_eie e s, raise_agenda e s, raise_reply e s⟩

/-! ## Commands over a length check -/

theorem runFree_ok (f : Bytes → Bytes) (s : State) (h : s.ilen.toNat ≤ 64) :
    runFree f s = .next (commitOk (f (inBytes s)) s) := if_neg (by omega)

theorem runFree_error (f : Bytes → Bytes) (s : State) (h : 64 < s.ilen.toNat) :
    runFree f s = .next (raise .invalidLength s) := if_pos h

theorem runExact_ok (n : Nat) (e : CmdError) (f : Bytes → Bytes) (s : State) (h : s.ilen.toNat = n) :
    runExact n e f s = .next (commitOk (f (inBytes s)) s) := if_neg (by simp [h])

theorem runExact_error (n : Nat) (e : CmdError) (f : Bytes → Bytes) (s : State) (h : s.ilen.toNat ≠ n) :
    runExact n e f s = .next (raise e s) := if_pos h

/-! ## Host writes -/

/-- A 32-bit write at a register's offset is a write to that register. -/
theorem busWrite_offset (r : Reg) (w : Word) (s : State) : busWrite .word r.offset w s = writeReg r w s := by
  rw [busWrite, if_pos (accepted_offset r), regAt_offset]

/-- A 32-bit read at a register's offset answers that register's word. -/
theorem busRead_offset (r : Reg) (s : State) : busRead .word r.offset s = .data (readReg s r) := by
  rw [busRead, if_pos (accepted_offset r), regAt_offset]

/-- The accept attempt either drops the write or makes the word pending, rules R38 and R39. -/
theorem accept_cases (w : Word) (s : State) :
    ((s.busy = true ∨ s.err = true) ∧ accept w s = dropWrite s) ∨
      (s.busy = false ∧ s.err = false ∧ accept w s = { s with cmdw := w, busy := true, done := false }) := by
  rcases hb : s.busy <;> rcases he : s.err <;> simp [accept, hb, he]

/-- A write to CTRL either resets the block or writes the two enables, rule R27. -/
theorem writeCtrl_cases (w : Word) (s : State) :
    (w.getLsbD 31 = true ∧ writeCtrl w s = resetBlock s) ∨
      (w.getLsbD 31 = false ∧ writeCtrl w s = { s with die := w.getLsbD 0, eie := w.getLsbD 1 }) := by
  rcases h : w.getLsbD 31
  · exact .inr ⟨rfl, by simp only [writeCtrl, h, Bool.false_eq_true, if_false]⟩
  · exact .inl ⟨rfl, by simp only [writeCtrl, h, if_true]⟩

/-- What a host write can do to the block: one of seven effects, named by the register. -/
theorem writeReg_cases (r : Reg) (w : Word) (s : State) :
    writeReg r w s = s ∨ writeReg r w s = dropWrite s ∨
      (r = .ctrl ∧ writeReg r w s = resetBlock s) ∨
      (r = .ctrl ∧ writeReg r w s = { s with die := w.getLsbD 0, eie := w.getLsbD 1 }) ∨
      (r = .status ∧ writeReg r w s = acknowledge w s) ∨
      (r = .cmd ∧ s.busy = false ∧ s.err = false ∧ writeReg r w s = { s with cmdw := w, busy := true, done := false }) ∨
      (r = .ilen ∧ s.busy = false ∧ writeReg r w s = { s with ilen := w.extractLsb' 0 8 }) ∨
      (∃ j, r = .ibuf j ∧ s.busy = false ∧ writeReg r w s = { s with ibuf := writeLanes s.ibuf j.val w }) := by
  cases r with
  | id | cap | olen | obuf j | reserved => exact .inl rfl
  | status => simp [writeReg]
  | ctrl => rcases writeCtrl_cases w s with ⟨-, h⟩ | ⟨-, h⟩ <;> simp [writeReg, h]
  | cmd => rcases accept_cases w s with ⟨-, h⟩ | ⟨hb, he, h⟩ <;> simp [writeReg, *]
  | ilen => rcases h : s.busy <;> simp [writeReg, writeIlen, h]
  | ibuf j => rcases h : s.busy <;> simp [writeReg, writeIbuf, h]

end Sys2Proof.Machine
end

