-- ==== Sys2Proof/Laws/PerInstr.lean ====
section
/-! SUPPORT. Facts about every command as syntax, one lemma per constructor of `Instr`. -/

namespace Sys2Proof.Laws.WordIsLegal

/-- The command word of `i` is not illegal by rule R94: its field ZERO is zero and its opcode is below 0x0C. -/
def Statement (i : Instr) : Prop := commandWordLegal (encode i) = true

theorem nop : Statement .nop := rfl
theorem sha256 : Statement .sha256 := rfl
theorem rmd160 : Statement .rmd160 := rfl
theorem hash160 : Statement .hash160 := rfl
theorem dsha256 : Statement .dsha256 := rfl
theorem chksum : Statement .chksum := rfl
theorem sinasm : Statement .sinasm := rfl
theorem b58enc : Statement .b58enc := rfl
theorem kcomp : Statement .kcomp := rfl
theorem sin : Statement .sin := rfl
theorem sinpk : Statement .sinpk := rfl
theorem xfer : Statement .xfer := rfl

end Sys2Proof.Laws.WordIsLegal
end

