-- ==== Sys2Proof/Laws/Step.lean ====
section
/-! SUPPORT. What a command, the engine and one step can do, once. -/

namespace Sys2Proof.Machine

/-- What a command can do: where its length condition (rule R101) holds, commit a string that fits, or keep the output (NOP),
or move the output to the input (XFER); where it does not, fail with its one error. Nothing else, and always a next state
(rules R40, R100). -/
theorem exec_cases (i : Instr) (s : State) :
    (LengthOk i s ∧ i ≠ .nop ∧ i ≠ .xfer ∧ ∃ out, out.length ≤ 88 ∧ exec i s = .next (commitOk out s)) ∨
      (i = .nop ∧ exec i s = .next (commitKeep s)) ∨
      (LengthOk i s ∧ i = .xfer ∧ exec i s = .next (commitKeep (moveOutput s))) ∨
      (¬ LengthOk i s ∧ ∃ e : CmdError, e.code = lengthErrorCode i ∧ exec i s = .next (raise e s)) := by
  have free : ∀ f : Bytes → Bytes, (∀ b : Bytes, b.length ≤ 64 → (f b).length ≤ 88) →
      (s.ilen.toNat ≤ 64 ∧ ∃ out, out.length ≤ 88 ∧ runFree f s = .next (commitOk out s)) ∨
        (¬ s.ilen.toNat ≤ 64 ∧ runFree f s = .next (raise .invalidLength s)) := by
    intro f hf
    rcases Nat.lt_or_ge 64 s.ilen.toNat with h | h
    · exact .inr ⟨by omega, runFree_error f s h⟩
    · exact .inl ⟨h, _, hf _ (inBytes_length_le s), runFree_ok f s h⟩
  have exact' : ∀ (n : Nat) (e : CmdError) (f : Bytes → Bytes), n ≤ 64 → (∀ b : Bytes, b.length = n → (f b).length ≤ 88) →
      (s.ilen.toNat = n ∧ ∃ out, out.length ≤ 88 ∧ runExact n e f s = .next (commitOk out s)) ∨
        (¬ s.ilen.toNat = n ∧ runExact n e f s = .next (raise e s)) := by
    intro n e f hn hf
    rcases eq_or_ne s.ilen.toNat n with h | h
    · exact .inl ⟨h, _, hf _ ((inBytes_length s (by omega)).trans h), runExact_ok n e f s h⟩
    · exact .inr ⟨h, runExact_error n e f s h⟩
  have text : ∀ m : Bytes, (sinText m).length ≤ 88 := fun m => b58_length_le _ (by simp)
  cases i with
  | nop => exact .inr (.inl ⟨rfl, rfl⟩)
  | sha256 =>
    obtain ⟨h, o⟩ | ⟨h, e⟩ := free sha256 (by simp)
    exacts [.inl ⟨h, nofun, nofun, o⟩, .inr (.inr (.inr ⟨h, _, rfl, e⟩))]
  | rmd160 =>
    obtain ⟨h, o⟩ | ⟨h, e⟩ := free rmd160 (by simp)
    exacts [.inl ⟨h, nofun, nofun, o⟩, .inr (.inr (.inr ⟨h, _, rfl, e⟩))]
  | hash160 =>
    obtain ⟨h, o⟩ | ⟨h, e⟩ := free hash160 (by simp)
    exacts [.inl ⟨h, nofun, nofun, o⟩, .inr (.inr (.inr ⟨h, _, rfl, e⟩))]
  | dsha256 =>
    obtain ⟨h, o⟩ | ⟨h, e⟩ := free dsha256 (by simp)
    exacts [.inl ⟨h, nofun, nofun, o⟩, .inr (.inr (.inr ⟨h, _, rfl, e⟩))]
  | chksum =>
    obtain ⟨h, o⟩ | ⟨h, e⟩ := free chksum (by simp)
    exacts [.inl ⟨h, nofun, nofun, o⟩, .inr (.inr (.inr ⟨h, _, rfl, e⟩))]
  | sinasm =>
    obtain ⟨h, o⟩ | ⟨h, e⟩ := exact' 20 _ sinAssemble (by omega) (by simp +contextual)
    exacts [.inl ⟨h, nofun, nofun, o⟩, .inr (.inr (.inr ⟨h, _, rfl, e⟩))]
  | b58enc =>
    obtain ⟨h, o⟩ | ⟨h, e⟩ := free b58 b58_length_le
    exacts [.inl ⟨h, nofun, nofun, o⟩, .inr (.inr (.inr ⟨h, _, rfl, e⟩))]
  | kcomp =>
    obtain ⟨h, o⟩ | ⟨h, e⟩ := exact' 64 _ kcomp (by omega) (by simp +contextual)
    exacts [.inl ⟨h, nofun, nofun, o⟩, .inr (.inr (.inr ⟨h, _, rfl, e⟩))]
  | sin =>
    obtain ⟨h, o⟩ | ⟨h, e⟩ := free sinText fun _ _ => text _
    exacts [.inl ⟨h, nofun, nofun, o⟩, .inr (.inr (.inr ⟨h, _, rfl, e⟩))]
  | sinpk =>
    obtain ⟨h, o⟩ | ⟨h, e⟩ := exact' 64 _ (fun p => sinText (kcomp p)) (by omega) fun _ _ => text _
    exacts [.inl ⟨h, nofun, nofun, o⟩, .inr (.inr (.inr ⟨h, _, rfl, e⟩))]
  | xfer =>
    rcases Nat.lt_or_ge 64 s.olen.toNat with h | h
    · exact .inr (.inr (.inr ⟨by simp only [LengthOk]; omega, .invalidLength, rfl, by simp only [exec, execXfer, if_pos h]⟩))
    · exact .inr (.inr (.inl ⟨h, rfl, by simp only [exec, execXfer, if_neg (not_lt.2 h)]⟩))

/-- Every command answers a next state. -/
theorem exec_next (i : Instr) (s : State) : ∃ t, exec i s = .next t := by
  obtain ⟨-, -, -, out, -, h⟩ | ⟨-, h⟩ | ⟨-, -, h⟩ | ⟨-, e, -, h⟩ := exec_cases i s <;> exact ⟨_, h⟩

/-! ## The arms of the dispatch, as the shared operations they are -/

theorem exec_nop (s : State) : exec .nop s = .next (commitKeep s) := rfl

theorem exec_sha256 (s : State) : exec .sha256 s = runFree sha256 s := rfl

theorem exec_rmd160 (s : State) : exec .rmd160 s = runFree rmd160 s := rfl

theorem exec_hash160 (s : State) : exec .hash160 s = runFree hash160 s := rfl

theorem exec_dsha256 (s : State) : exec .dsha256 s = runFree dsha256 s := rfl

theorem exec_chksum (s : State) : exec .chksum s = runFree chksum s := rfl

theorem exec_sinasm (s : State) : exec .sinasm s = runExact 20 .invalidLength sinAssemble s := rfl

theorem exec_b58enc (s : State) : exec .b58enc s = runFree b58 s := rfl

theorem exec_kcomp (s : State) : exec .kcomp s = runExact 64 .invalidKeyLength kcomp s := rfl

theorem exec_sin (s : State) : exec .sin s = runFree sinText s := rfl

theorem exec_sinpk (s : State) : exec .sinpk s = runExact 64 .invalidKeyLength (fun p => sinText (kcomp p)) s := rfl

theorem exec_xfer_ok (s : State) (h : s.olen.toNat ≤ 64) : exec .xfer s = .next (commitKeep (moveOutput s)) := by
  simp only [exec, execXfer, if_neg (not_lt.2 h)]

theorem exec_xfer_error (s : State) (h : 64 < s.olen.toNat) : exec .xfer s = .next (raise .invalidLength s) := by
  simp only [exec, execXfer, if_pos h]

/-- No command reads or writes the last answer on the bus (log entry 2). -/
theorem exec_reply (i : Instr) (s t : State) (x : Option BusReply) (h : exec i s = .next t) :
    exec i { s with reply := x } = .next { t with reply := x } := by
  have free : ∀ f : Bytes → Bytes, runFree f s = .next t → runFree f { s with reply := x } = .next { t with reply := x } := by
    intro f h
    rw [runFree] at h ⊢
    split at h <;> cases h <;> simp [*, raise, commitOk, inBytes]
  have exact' : ∀ (n : Nat) (e : CmdError) (f : Bytes → Bytes), runExact n e f s = .next t →
      runExact n e f { s with reply := x } = .next { t with reply := x } := by
    intro n e f h
    rw [runExact] at h ⊢
    split at h <;> cases h <;> simp [*, raise, commitOk, inBytes]
  cases i with
  | nop => cases h; rfl
  | sha256 => exact free sha256 h
  | rmd160 => exact free rmd160 h
  | hash160 => exact free hash160 h
  | dsha256 => exact free dsha256 h
  | chksum => exact free chksum h
  | sinasm => exact exact' 20 .invalidLength sinAssemble h
  | b58enc => exact free b58 h
  | kcomp => exact exact' 64 .invalidKeyLength kcomp h
  | sin => exact free sinText h
  | sinpk => exact exact' 64 .invalidKeyLength (fun p => sinText (kcomp p)) h
  | xfer =>
    rcases Nat.lt_or_ge 64 s.olen.toNat with ho | ho
    · obtain rfl := Host.Outcome.next.inj ((exec_xfer_error s ho).symm.trans h)
      exact exec_xfer_error _ ho
    · obtain rfl := Host.Outcome.next.inj ((exec_xfer_ok s ho).symm.trans h)
      exact exec_xfer_ok _ ho

/-- The input byte XFER leaves at index `i`, rule R222. -/
theorem moveOutput_ibuf_getElem (s : State) (i : Nat) (hi : i < 64) :
    (moveOutput s).ibuf[i] = if i < s.olen.toNat then s.obuf[i] else 0 := by
  simp only [moveOutput_ibuf, padTo_getElem, outBytes, List.getD_eq_getElem?_getD, List.getElem?_take]
  split <;> simp [show i < 88 by omega]

/-- After a committed string of at most 64 bytes, XFER makes that string the input string (rule R222). -/
theorem xfer_of_commitOk (s : State) (out : Bytes) (h : out.length ≤ 64) :
    exec .xfer (commitOk out s) = .next (commitKeep (moveOutput (commitOk out s))) ∧
      inBytes (commitKeep (moveOutput (commitOk out s))) = out ∧
      (commitKeep (moveOutput (commitOk out s))).ilen.toNat = out.length := by
  have hl : (commitOk out s).olen.toNat = out.length := (commitOk_commits out s (by omega)).olen
  have ho : outBytes (commitOk out s) = out := by
    rw [outBytes, hl, commitOk_obuf, take_padTo 88 out (by omega)]
  refine ⟨exec_xfer_ok _ (by omega), ?_, by rw [commitKeep_ilen, moveOutput_ilen, hl]⟩
  rw [inBytes, commitKeep_ibuf, commitKeep_ilen, moveOutput_ibuf, moveOutput_ilen, ho, hl, take_padTo 64 out h]

@[simp] theorem execAll_nil (s : State) : execAll [] s = .next s := rfl

theorem execAll_cons (i : Instr) (is : List Instr) (s t : State) (h : exec i s = .next t) :
    execAll (i :: is) s = execAll is t := by
  simp only [execAll, h]

/-! ## The engine -/

theorem complete_ok (s : State) (i : Instr) (h : decode s.cmdw = .ok i) : complete s = exec i s := by
  rw [complete, h]

theorem complete_error (s : State) (e : DecodeReject) (h : decode s.cmdw = .error e) :
    complete s = .next (raise .illegalCommand s) := by
  rw [complete, h]

@[simp] theorem engineTurn_idle (s : State) (h : s.busy = false) : engineTurn s = .next s := by simp [engineTurn, h]

@[simp] theorem engineTurn_busy (s : State) (h : s.busy = true) : engineTurn s = complete s := by simp [engineTurn, h]

/-! ## One step -/

theorem step_nil (s : State) (h : s.agenda = []) : step s = engineTurn s := by
  obtain ⟨_, _, _, _, _, _, _, _, _, _, _, _, ag, _⟩ := s
  obtain rfl : ag = [] := h
  rfl

theorem step_engine (s : State) (ts : List Turn) (h : s.agenda = .engine :: ts) :
    step s = engineTurn { s with agenda := ts } := by
  simp only [step, nextTurn, popTurn, h, takeTurn, List.headD_cons, List.tail_cons]

theorem step_host (s : State) (a : HostAction) (ts : List Turn) (h : s.agenda = .host a :: ts) :
    step s = .next (hostTurn a { s with agenda := ts }) := by
  simp only [step, nextTurn, popTurn, h, takeTurn, List.headD_cons, List.tail_cons]

/-! ## Several steps -/

/-- One more step of a run that does not stop. -/
theorem core_run_succ (M : Host.Core) (k : Nat) (s t : M.State) (h : M.step s = .next t) : M.run (k + 1) s = M.run k t := by
  simp only [Host.Core.run, h]

@[simp] theorem takeTurns_nil (s : State) : takeTurns [] s = .next s := rfl

theorem takeTurns_cons_host (a : HostAction) (ts : List Turn) (s : State) :
    takeTurns (.host a :: ts) s = takeTurns ts (hostTurn a s) := by
  simp only [takeTurns, takeTurn]

/-- The turns of a list in front, then the turns behind it. -/
theorem takeTurns_append (l l' : List Turn) (s t : State) (h : takeTurns l s = .next t) :
    takeTurns (l ++ l') s = takeTurns l' t := by
  induction l generalizing s with
  | nil => cases h; rfl
  | cons x l ih =>
    rw [List.cons_append, takeTurns]
    rw [takeTurns] at h
    rcases hx : takeTurn x s with s' | r | r <;> rw [hx] at h
    · exact ih s' h
    · cases h
    · cases h

end Sys2Proof.Machine
end

