-- ==== Sys2Proof/Laws/Script.lean ====
section
/-! SUPPORT. What the operations of a host script can do, once: what an access finds and leaves under any placement of the engine's
steps, the loop of `WAIT`, and the turns of the machine a run is made of. -/

namespace Sys2Proof.Machine

/-! ## The engine among the accesses -/

/-- The engine's turn is its step, from every state. -/
theorem engineTurn_eq (s : State) : engineTurn s = .next (engineStep s) := by
  obtain ⟨t, h⟩ : ∃ t, engineTurn s = .next t := by
    cases hb : s.busy
    · exact ⟨s, engineTurn_idle s hb⟩
    · rw [engineTurn_busy s hb]
      cases hd : decode s.cmdw with
      | error e => exact ⟨_, complete_error s e hd⟩
      | ok i =>
        rw [complete_ok s i hd]
        exact exec_next i s
  rw [engineStep, h]

@[simp] theorem engineStep_idle (s : State) (h : s.busy = false) : engineStep s = s := by
  simp only [engineStep, engineTurn_idle s h]

/-- The engine's step on a busy block that holds a command is that command (rules R40, R100). -/
theorem engineStep_exec (s t : State) (i : Instr) (h : s.busy = true) (hd : decode s.cmdw = .ok i) (he : exec i s = .next t) :
    engineStep s = t := by
  simp only [engineStep, engineTurn_busy s h, complete_ok s i hd, he]

/-- After the engine's turn BUSY = 0. -/
@[simp] theorem engineStep_busy (s : State) : (engineStep s).busy = false := by
  cases hb : s.busy
  · rwa [engineStep_idle s hb]
  · cases hd : decode s.cmdw with
    | error e => simp only [engineStep, engineTurn_busy s hb, complete_error s e hd, raise]
    | ok i =>
      obtain ⟨-, -, -, out, -, h⟩ | ⟨-, h⟩ | ⟨-, -, h⟩ | ⟨-, e, -, h⟩ := exec_cases i s <;>
        rw [engineStep_exec s _ i hb hd h] <;> rfl

/-- The engine leaves the turns to come alone. -/
@[simp] theorem engineStep_agenda (s : State) : (engineStep s).agenda = s.agenda := by
  rcases Bool.eq_false_or_eq_true s.busy with hb | hb
  · cases hd : decode s.cmdw with
    | error e => simp only [engineStep, engineTurn_busy s hb, complete_error s e hd, raise_agenda]
    | ok i =>
      obtain ⟨-, -, -, out, -, h⟩ | ⟨-, h⟩ | ⟨-, -, h⟩ | ⟨-, e, -, h⟩ := exec_cases i s <;>
        simp only [engineStep, engineTurn_busy s hb, complete_ok s i hd, h, commitOk_agenda, commitKeep_agenda,
          moveOutput_agenda, raise_agenda]
  · rw [engineStep_idle s hb]

/-- The engine neither reads nor writes the last answer on the bus (log entry 2). -/
theorem engineStep_reply (s : State) (x : Option BusReply) :
    engineStep { s with reply := x } = { engineStep s with reply := x } := by
  rcases Bool.eq_false_or_eq_true s.busy with hb | hb
  · cases hd : decode s.cmdw with
    | error e =>
      have h (u : State) (hu : u.busy = true) (hc : u.cmdw = s.cmdw) : engineStep u = raise .illegalCommand u := by
        simp only [engineStep, engineTurn_busy u hu, complete_error u e (hc ▸ hd)]
      rw [h s hb rfl, h { s with reply := x } hb rfl]; rfl
    | ok i =>
      obtain ⟨t, h⟩ := exec_next i s
      rw [engineStep_exec s t i hb hd h, engineStep_exec { s with reply := x } _ i hb hd (exec_reply i s t x h)]
  · rw [engineStep_idle s hb, engineStep_idle { s with reply := x } hb]

/-! ## One access -/

namespace ScriptRun

@[simp] theorem engine_state (r : ScriptRun) : r.engine.state = engineStep r.state := by
  rw [engine]; split
  · rfl
  · next h => exact (engineStep_idle _ (by simpa using h)).symm

@[simp] theorem engine_placement (r : ScriptRun) : r.engine.placement = r.placement := by rw [engine]; split <;> rfl

@[simp] theorem engine_encoding (r : ScriptRun) : r.engine.encoding = r.encoding := by
  rw [engine]; split <;> simp [encoding]

@[simp] theorem ready_placement (r : ScriptRun) : r.ready.placement = r.placement.tail := rfl

/-- What an access finds: the state as it is, or as the engine's step leaves it. -/
theorem ready_state (r : ScriptRun) :
    r.ready.state = if r.placement.headD true then engineStep r.state else r.state := by
  simp only [ready]; split <;> simp

@[simp] theorem ready_encoding (r : ScriptRun) : r.ready.encoding = r.encoding := by
  simp only [ready]; split
  · exact engine_encoding r
  · rfl

/-- With BUSY = 0 an access finds the state as it is, whatever the placement. -/
@[simp] theorem ready_state_idle (r : ScriptRun) (h : r.state.busy = false) : r.ready.state = r.state := by
  rw [ready_state, engineStep_idle _ h, ite_self]

/-- Past the last entry of the placement an access finds BUSY = 0. -/
theorem ready_busy_nil (r : ScriptRun) (h : r.placement = []) : r.ready.state.busy = false := by
  rw [ready_state, h]; simp

/-- Two runs in one state under one placement find the same. -/
theorem ready_congr (r q : ScriptRun) (hs : r.state = q.state) (hp : r.placement = q.placement) : r.ready.state = q.ready.state := by
  rw [ready_state, ready_state, hs, hp]

@[simp] theorem read_state (off : BitVec 8) (r : ScriptRun) :
    (r.read off).state = hostTurn (.busRead .word off) r.ready.state := rfl

/-- A read changes nothing but the answer on the bus (rule R65). -/
@[simp] theorem hostTurn_busRead_busy (size : AccessSize) (off : BitVec 8) (s : State) :
    (hostTurn (.busRead size off) s).busy = s.busy := rfl

@[simp] theorem read_placement (off : BitVec 8) (r : ScriptRun) : (r.read off).placement = r.placement.tail := rfl

theorem read_busy (off : BitVec 8) (r : ScriptRun) : (r.read off).state.busy = r.ready.state.busy := rfl

/-- A read of a register returns its word in the state the access finds. -/
@[simp] theorem read_word (x : Reg) (r : ScriptRun) : (r.read x.offset).word = readReg r.ready.state x := by
  simp only [word, read_state, hostTurn, busRead_offset]

theorem read_encoding (off : BitVec 8) (r : ScriptRun) :
    (r.read off).encoding = r.encoding ++ [.read off (r.read off).word] := by
  simp only [read, encoding, List.filter_append]
  exact congrArg₂ _ (ready_encoding r) rfl

@[simp] theorem read_reg_encoding (x : Reg) (r : ScriptRun) :
    (r.read x.offset).encoding = r.encoding ++ [.read x.offset (readReg r.ready.state x)] := by
  rw [read_encoding, read_word]

@[simp] theorem write_state (off : BitVec 8) (w : Word) (r : ScriptRun) :
    (r.write off w).state = hostTurn (.busWrite .word off w) r.ready.state := rfl

@[simp] theorem write_placement (off : BitVec 8) (w : Word) (r : ScriptRun) : (r.write off w).placement = r.placement.tail := rfl

@[simp] theorem write_encoding (off : BitVec 8) (w : Word) (r : ScriptRun) :
    (r.write off w).encoding = r.encoding ++ [.write off w] := by
  simp only [write, encoding, List.filter_append]
  exact congrArg₂ _ (ready_encoding r) rfl

/-! ## Several accesses -/

theorem writeAll_encoding (l : List (BitVec 8 × Word)) (r : ScriptRun) :
    (l.foldl (fun q a => q.write a.1 a.2) r).encoding = r.encoding ++ l.map fun a => .write a.1 a.2 := by
  induction l generalizing r with
  | nil => simp
  | cons a l ih => simp [ih]

/-- A statement `LOAD` is its writes. -/
theorem load_encoding (b : Bytes) (r : ScriptRun) :
    ((Stmt.load b).execute r).encoding = r.encoding ++ (loadWrites b).map fun a => .write a.1 a.2 := writeAll_encoding _ r

/-! ## The loop of WAIT -/

/-- Bit 0 of STATUS is BUSY. -/
theorem read_status_bit (r : ScriptRun) : (r.read Reg.status.offset).word.getLsbD 0 = r.ready.state.busy := by
  rw [read_word]; simp only [readReg, statusWord, BitVec.getLsbD_append]
  cases r.ready.state.busy <;> rfl

theorem poll_succ (n : Nat) (r : ScriptRun) :
    r.poll (n + 1) = if r.ready.state.busy then (r.read Reg.status.offset).poll n else r.read Reg.status.offset := by
  rw [poll, read_status_bit]

/-- A `WAIT` whose poll finds BUSY = 0 ends with it (rule R111). -/
theorem wait_idle (r : ScriptRun) (h : r.ready.state.busy = false) : r.wait = r.read Reg.status.offset := by
  rw [wait]; cases r.placement.length with
  | zero => rfl
  | succ n => rw [poll_succ, h]; rfl

/-- A `WAIT` whose poll finds BUSY = 1 polls again (rule R111). -/
theorem wait_busy (r : ScriptRun) (h : r.ready.state.busy = true) : r.wait = (r.read Reg.status.offset).wait := by
  rw [wait, wait, read_placement]
  cases hp : r.placement with
  | nil => rw [ready_busy_nil r hp] at h; cases h
  | cons b p => rw [List.length_cons, poll_succ, h]; rfl

/-- What a `WAIT` is, as induction: it holds of the poll that finds BUSY = 0, and of a `WAIT` when it does of the `WAIT` that
follows its first poll. Every `WAIT` ends (rule R275). -/
theorem wait_induction {P : ScriptRun → Prop} (idle : ∀ r, r.ready.state.busy = false → P r)
    (busy : ∀ r : ScriptRun, r.ready.state.busy = true → P (r.read Reg.status.offset) → P r) (r : ScriptRun) : P r := by
  generalize hp : r.placement = p
  induction p generalizing r with
  | nil => exact idle r (ready_busy_nil r hp)
  | cons b p ih =>
    rcases h : r.ready.state.busy
    · exact idle r h
    · exact busy r h (ih _ (by simp [hp]))

/-- A `WAIT` ends with BUSY = 0, under every placement (rules R111, R275). -/
@[simp] theorem wait_state_busy (r : ScriptRun) : r.wait.state.busy = false := by
  induction r using wait_induction with
  | idle r h => rw [wait_idle r h]; exact h
  | busy r h ih => rwa [wait_busy r h]

/-- What a `WAIT` leaves, whatever the placement: the state of the completion, and the word of the last poll on the bus. No
rule depends on how many polls there are (rule R275). -/
theorem wait_state (r : ScriptRun) :
    r.wait.state = { engineStep r.state with reply := some (.data (statusWord (engineStep r.state))) } := by
  have word (s : State) : hostTurn (.busRead .word Reg.status.offset) s = { s with reply := some (.data (statusWord s)) } := by
    rw [hostTurn, busRead_offset]; rfl
  induction r using wait_induction with
  | idle r h =>
    rw [wait_idle r h, read_state, word]
    rw [ready_state] at h ⊢
    split at h
    · rw [if_pos ‹_›]
    · rw [if_neg ‹_›, engineStep_idle _ h]
  | busy r h ih =>
    rw [wait_busy r h, ih, read_state, word, engineStep_reply]
    rw [ready_state] at h ⊢
    split at h
    · simp at h
    · rw [if_neg ‹_›]; rfl

/-! ## A run of a script is a run of the machine -/

theorem from_start (p : Placement) (s : State) : IsRunFrom s (.start p s) := rfl

theorem from_snoc {s : State} {r : ScriptRun} (h : IsRunFrom s r) (l : TraceLine) (t : State) (p : Placement)
    (ht : takeTurn l.turn r.state = .next t) : IsRunFrom s { state := t, placement := p, trace := r.trace ++ [l] } := by
  have e : (r.trace ++ [l]).map TraceLine.turn = r.turns ++ [l.turn] := List.map_append
  exact (congrArg (takeTurns · s) e).trans
    ((takeTurns_append r.turns [l.turn] s r.state h).trans (by simp only [takeTurns, ht]))

theorem from_engine {s : State} {r : ScriptRun} (h : IsRunFrom s r) : IsRunFrom s r.engine := by
  rw [engine]; split
  · exact from_snoc h .engine _ _ (engineTurn_eq r.state)
  · exact h

theorem from_ready {s : State} {r : ScriptRun} (h : IsRunFrom s r) : IsRunFrom s r.ready := by
  simp only [ready]; split
  · exact from_engine h
  · exact h

theorem from_read {s : State} {r : ScriptRun} (h : IsRunFrom s r) (off : BitVec 8) : IsRunFrom s (r.read off) :=
  from_snoc (from_ready h) _ _ _ rfl

theorem from_write {s : State} {r : ScriptRun} (h : IsRunFrom s r) (off : BitVec 8) (w : Word) : IsRunFrom s (r.write off w) :=
  from_snoc (from_ready h) _ _ _ rfl

theorem from_wait {s : State} {r : ScriptRun} (h : IsRunFrom s r) : IsRunFrom s r.wait := by
  induction r using wait_induction with
  | idle r hb => rw [wait_idle r hb]; exact from_read h _
  | busy r hb ih => rw [wait_busy r hb]; exact ih (from_read h _)

theorem from_foldl {α : Type} {f : ScriptRun → α → ScriptRun} {s : State}
    (hf : ∀ r a, IsRunFrom s r → IsRunFrom s (f r a)) (l : List α) {r : ScriptRun} (h : IsRunFrom s r) : IsRunFrom s (l.foldl f r) := by
  induction l generalizing r with
  | nil => exact h
  | cons a l ih => exact ih (hf r a h)

/-- A statement keeps a run one of the machine. -/
theorem from_execute {s : State} {r : ScriptRun} (h : IsRunFrom s r) (st : Stmt) : IsRunFrom s (st.execute r) := by
  cases st with
  | wr x w => exact from_write h _ _
  | rd x => exact from_read h _
  | rdExpect x w => exact from_read h _
  | load b => exact from_foldl (fun q a hq => from_write hq a.1 a.2) _ h
  | cmd i => exact from_write h _ _
  | wait => exact from_wait h
  | awaitIrq =>
    simp only [Stmt.execute, awaitIrq]; split
    · exact h
    · exact from_engine h
  | run i => exact from_wait (from_write h _ _)
  | ack d e p => exact from_write h _ _
  | unload => exact from_foldl (fun q off hq => from_read hq off) _ (from_read h _)
  | srst => exact from_write h _ _

end ScriptRun

/-- The lines of the run of a script, taken as turns, lead to the state it ends in (rules R12, R70). -/
theorem runScript_from (sts : List Stmt) (p : Placement) (s : State) : ScriptRun.IsRunFrom s (runScript sts p s) :=
  ScriptRun.from_engine (ScriptRun.from_foldl (fun _ st h => ScriptRun.from_execute h st) sts (ScriptRun.from_start p s))

/-- A script ends with BUSY = 0 (rule R15). -/
@[simp] theorem runScript_busy (sts : List Stmt) (p : Placement) (s : State) : (runScript sts p s).state.busy = false := by
  simp [runScript]

/-! ## Scripts whose end does not depend on the placement -/

/-- A statement that no placement can change: it is issued with BUSY = 0, or waits, or resets. -/
def Stmt.settled (s : State) : Stmt → Bool
  | .wait | .awaitIrq | .srst => true
  | .wr _ _ | .rd _ | .rdExpect _ _ | .load _ | .cmd _ | .run _ | .ack _ _ _ | .unload => !s.busy

/-- Every statement of a script is settled in the run so far. -/
def settledFrom : List Stmt → ScriptRun → Bool
  | [], _ => true
  | st :: rest, r => st.settled r.state && settledFrom rest (st.execute r)

/-- A write to another register than CMD starts no command. -/
theorem hostTurn_write_idle (off : BitVec 8) (w : Word) (s : State) (h : s.busy = false) (ho : regAt off ≠ .cmd) :
    (hostTurn (.busWrite .word off w) s).busy = false := by
  simp only [hostTurn, busWrite]
  split
  · obtain e | e | ⟨-, e⟩ | ⟨-, e⟩ | ⟨-, e⟩ | ⟨hc, -⟩ | ⟨-, -, e⟩ | ⟨_, -, -, e⟩ := writeReg_cases (regAt off) w s
    case inr.inr.inr.inr.inr.inl => exact absurd hc ho
    all_goals first | (rw [e]; exact h) | (rw [e]; rfl)
  · exact h

/-- No write of a `LOAD` that fits in IBUF addresses CMD. -/
theorem loadWrites_ne_cmd (b : Bytes) (hb : b.length ≤ 64) : ∀ a ∈ loadWrites b, regAt a.1 ≠ .cmd := by
  have ibuf : ∀ j, j < 16 → regAt (BitVec.ofNat 8 (0x40 + 4 * j)) ≠ .cmd := by decide
  simp only [loadWrites, wordsFor, List.mem_append, List.mem_map, List.mem_range, List.mem_singleton]
  rintro a (⟨j, hj, rfl⟩ | rfl)
  · exact ibuf j (by omega)
  · rw [regAt_offset]; decide

/-- Writes that start no command, from an idle block, leave one state under every placement. -/
theorem writeAll_state (l : List (BitVec 8 × Word)) (hl : ∀ a ∈ l, regAt a.1 ≠ .cmd) (r : ScriptRun) (h : r.state.busy = false) :
    (l.foldl (fun q a => q.write a.1 a.2) r).state = l.foldl (fun s a => hostTurn (.busWrite .word a.1 a.2) s) r.state := by
  induction l generalizing r with
  | nil => rfl
  | cons a l ih =>
    have e : (r.write a.1 a.2).state = hostTurn (.busWrite .word a.1 a.2) r.state := by simp [h]
    rw [List.foldl_cons, List.foldl_cons, ih (fun x hx => hl x (by simp [hx])) _ (e ▸ hostTurn_write_idle _ _ _ h (hl a (by simp))), e]

/-- Reads from an idle block leave one state under every placement. -/
theorem readAll_state (l : List (BitVec 8)) (r : ScriptRun) (h : r.state.busy = false) :
    (l.foldl (fun q off => q.read off) r).state = l.foldl (fun s off => hostTurn (.busRead .word off) s) r.state := by
  induction l generalizing r with
  | nil => rfl
  | cons a l ih =>
    have e : (r.read a).state = hostTurn (.busRead .word a) r.state := by simp [h]
    rw [List.foldl_cons, List.foldl_cons, ih _ (by rw [e]; exact h), e]

/-- A settled statement, issued well, is issued well and leaves the same state under every placement. -/
theorem settled_congr (st : Stmt) (r q : ScriptRun) (hs : q.state = r.state) (h : st.settled r.state = true)
    (hw : st.issuedWell r = true) : st.issuedWell q = true ∧ (st.execute q).state = (st.execute r).state := by
  have idle : r.state.busy = false → r.ready.state = r.state ∧ q.ready.state = r.state :=
    fun hb => ⟨ScriptRun.ready_state_idle r hb, (ScriptRun.ready_state_idle q (hs ▸ hb)).trans hs⟩
  cases st with
  | wait => exact ⟨rfl, by simp only [Stmt.execute, ScriptRun.wait_state, hs]⟩
  | awaitIrq =>
    have e : q.awaitIrq.state = r.awaitIrq.state := by simp only [ScriptRun.awaitIrq, hs]; split <;> simp [hs]
    exact ⟨by simpa only [Stmt.issuedWell, e] using hw, e⟩
  | srst =>
    refine ⟨rfl, ?_⟩
    have e (x : ScriptRun) : hostTurn (.busWrite .word Reg.ctrl.offset 0x80000000) x.ready.state =
        { State.reset with agenda := x.ready.state.agenda, reply := some .okay } := by
      rw [hostTurn, busWrite_offset]; rfl
    have ag (x : ScriptRun) : x.ready.state.agenda = x.state.agenda := by rw [ScriptRun.ready_state]; split <;> simp
    simp only [Stmt.execute, ScriptRun.write_state, e, ag, hs]
  | wr x w | rd x | rdExpect x w | cmd i | ack d e p =>
    obtain ⟨e1, e2⟩ := idle (by simpa [Stmt.settled] using h)
    simp_all [Stmt.execute, Stmt.issuedWell]
  | run i =>
    obtain ⟨e1, e2⟩ := idle (by simpa [Stmt.settled] using h)
    simp_all [Stmt.execute, Stmt.issuedWell, ScriptRun.wait_state]
  | load b =>
    have hb : r.state.busy = false := by simpa [Stmt.settled] using h
    obtain ⟨e1, e2⟩ := idle hb
    have hl : b.length ≤ 64 := by simp_all [Stmt.issuedWell, Config.ibufBytes]
    refine ⟨by simp_all [Stmt.issuedWell], ?_⟩
    rw [Stmt.execute, Stmt.execute, writeAll_state _ (loadWrites_ne_cmd b hl) r hb,
      writeAll_state _ (loadWrites_ne_cmd b hl) q (hs ▸ hb), hs]
  | unload =>
    have hb : r.state.busy = false := by simpa [Stmt.settled] using h
    obtain ⟨e1, e2⟩ := idle hb
    refine ⟨by simp_all [Stmt.issuedWell], ?_⟩
    simp only [Stmt.execute, ScriptRun.unload]
    rw [readAll_state _ _ (by rw [ScriptRun.read_busy, e2, hb]), readAll_state _ _ (by rw [ScriptRun.read_busy, e1, hb]),
      ScriptRun.read_word, ScriptRun.read_word,
      ScriptRun.read_state, ScriptRun.read_state, e1, e2]

/-- A script that is settled and well formed under one placement is well formed and ends in the same state under every one, as
the spec says of programs P1, P2 and P4. -/
theorem settled_script (sts : List Stmt) (r q : ScriptRun) (hs : q.state = r.state) (h : settledFrom sts r = true)
    (hw : wellFormedFrom sts r = true) :
    wellFormedFrom sts q = true ∧
      (sts.foldl (fun r st => Stmt.execute st r) q).state = (sts.foldl (fun r st => Stmt.execute st r) r).state := by
  induction sts generalizing r q with
  | nil => exact ⟨rfl, hs⟩
  | cons st rest ih =>
    simp only [settledFrom, wellFormedFrom, Bool.and_eq_true, List.foldl_cons] at h hw ⊢
    obtain ⟨hq, e⟩ := settled_congr st r q hs h.1 hw.1
    obtain ⟨hr, e'⟩ := ih _ _ e h.2 hw.2
    exact ⟨⟨hq, hr⟩, e'⟩

/-- The same, for a whole script (rules R112, R275). -/
theorem scriptWellFormed_of_settled (sts : List Stmt) (s : State) (h : settledFrom sts (.start [] s) = true)
    (hw : scriptWellFormedAlong sts [] s = true) : ScriptWellFormed sts s :=
  fun p => (settled_script sts (.start [] s) (.start p s) rfl h hw).1

/-- A settled script ends in one state (rule R275). -/
theorem runScript_state_of_settled (sts : List Stmt) (s : State) (p : Placement) (h : settledFrom sts (.start [] s) = true)
    (hw : scriptWellFormedAlong sts [] s = true) : (runScript sts p s).state = (runScript sts [] s).state := by
  simp only [runScript, ScriptRun.engine_state, (settled_script sts (.start [] s) (.start p s) rfl h hw).2]

end Sys2Proof.Machine
end

