-- ==== Sys2Proof/Tests/Slice0.lean ====
section
/-! SUPPORT. Tests of the model. Expected values are those of spec/95 and spec/96 (vector ids D<f>.<n> and S<n>) or written
out from the encodings of spec/30. The second part holds one witness or more for every obligation with hypotheses. -/

open Sys2Proof Sys2Proof.Machine

namespace Sys2Proof.Tests

set_option Elab.async false

/-! ## Helpers -/

/-- Words one after the other, each most significant byte first, as the vectors are printed. -/
def hexWords (ws : List Word) : Bytes := ws.flatMap be32

/-- The reset state with `b` in IBUF and its length in ILEN. -/
def loaded (b : Bytes) : State := { State.reset with ibuf := padTo 64 b, ilen := BitVec.ofNat 8 b.length }

/-- The reset state with the word `w` pending and ILEN = `n`. -/
def pending (w : Word) (n : BitVec 8) : State := { State.reset with cmdw := w, busy := true, ilen := n }

/-- The state after an illegal word 0x0C has failed. -/
def failed : State := { State.reset with cmdw := 0x0C, err := true, ecode := 5 }

/-- The reset state with `b` in OBUF and its length in OLEN. -/
def holding (b : Bytes) : State := { State.reset with obuf := padTo 88 b, olen := BitVec.ofNat 8 b.length }

/-- The state a result leaves, if it is a next state. -/
def stateOf : Result → Option State
  | .next t => some t
  | .fault _ | .refused _ => none

/-- OBUF[0..OLEN) after a result. -/
def outOf (r : Result) : Option Bytes := (stateOf r).map outBytes

/-- The word STATUS reads as after a result. -/
def statusOf (r : Result) : Option Word := (stateOf r).map statusWord

/-- X of vector S3. -/
def keyX : Bytes :=
  hexWords [0x8440d3ca, 0x303ac024, 0x86f841db, 0xe77bb04d, 0xcd4cef26, 0x9a305b74, 0xf072dd50, 0xac6ad112]

/-! ## Decoding: the words of rule R91 written out, and illegal words (rule R94) -/

theorem test_decode_control : decode 0x00000000 = .ok .nop ∧ decode 0x0000000B = .ok .xfer := by decide

theorem test_decode_primitives : decode 0x00000001 = .ok .sha256 ∧ decode 0x00000002 = .ok .rmd160 := by decide

theorem test_decode_hash160 : decode 0x00000003 = .ok .hash160 := by decide

theorem test_decode_sin_checksum :
    decode 0x00000004 = .ok .dsha256 ∧ decode 0x00000005 = .ok .chksum ∧ decode 0x00000006 = .ok .sinasm := by decide

theorem test_decode_base58 : decode 0x00000007 = .ok .b58enc := by decide

theorem test_decode_kcomp : decode 0x00000008 = .ok .kcomp := by decide

theorem test_decode_chains : decode 0x00000009 = .ok .sin ∧ decode 0x0000000A = .ok .sinpk := by decide

/-- The illegal words of D8.12 and D8.13, each rejected by name. -/
theorem test_decode_rejects :
    decode 0x0000000C = .error .reservedOpcode ∧ decode 0x000000FF = .error .reservedOpcode ∧
      decode 0x00000100 = .error .zeroFieldNotZero ∧ decode 0x00000101 = .error .zeroFieldNotZero ∧
      decode 0x80000000 = .error .zeroFieldNotZero ∧ decode 0xFFFFFFFF = .error .zeroFieldNotZero ∧
      decode 0x00010003 = .error .zeroFieldNotZero ∧ decode 0x00000108 = .error .zeroFieldNotZero := by decide

theorem test_decode_table_word :
    decodeTableWord 32 0x0000000A = some .sinpk ∧ decodeTableWord 32 0x0000000C = none ∧
      decodeTableWord 8 0x0B = some .xfer ∧ decodeTableWord 40 0x00 = none := by decide

/-! ## Well-formedness: each check refuses an ill-formed term -/

/-- The two checks on a command word: field ZERO, then the opcode's range. -/
theorem test_wf_illegal_words :
    commandWordLegal 0x00000100 = false ∧ commandWordLegal 0x0000000C = false ∧ commandWordLegal 0x0000000B = true := by decide

/-- Rule R112: a `CMD` that can find BUSY = 1, under one placement of the engine's step and not under another; one while ERR = 1. -/
theorem test_wf_script_cmd :
    scriptWellFormedAlong [.cmd .nop, .cmd .nop] [true, false] State.reset = false ∧
      scriptWellFormedAlong [.cmd .nop, .cmd .nop] [true, true] State.reset = true ∧
      scriptWellFormedAlong [.cmd .nop] [] failed = false ∧
      scriptWellFormedAlong [.ack false true false, .run .nop] [] failed = true := by decide +kernel

/-- Rule R112: a `LOAD` while BUSY = 1, and one of 65 bytes. -/
theorem test_wf_script_load :
    scriptWellFormedAlong [.cmd .nop, .load [0x61]] [true, false] State.reset = false ∧
      scriptWellFormedAlong [.load (List.replicate 65 0)] [] State.reset = false ∧
      scriptWellFormedAlong [.load (List.replicate 64 0)] [] State.reset = true := by decide +kernel

/-- Rule R112: an `UNLOAD` while BUSY = 1; rule R110: a reserved offset is no named register; a wait for `irq` that cannot end. -/
theorem test_wf_script_unload :
    scriptWellFormedAlong [.cmd .nop, .unload] [true, false] State.reset = false ∧
      scriptWellFormedAlong [.unload] [] State.reset = true ∧ scriptWellFormedAlong [.rd .reserved] [] State.reset = false ∧
      scriptWellFormedAlong [.cmd .nop, .awaitIrq] [] State.reset = false := by decide +kernel

/-! ## The commands -/

/-- D7.1. -/
theorem test_nop : statusOf (exec .nop (pending 0 0)) = some 0x00000002 := by decide +kernel

/-- D1.2. -/
theorem test_sha256_abc :
    outOf (exec .sha256 (loaded [0x61, 0x62, 0x63])) = some (hexWords
      [0xba7816bf, 0x8f01cfea, 0x414140de, 0x5dae2223, 0xb00361a3, 0x96177a9c, 0xb410ff61, 0xf20015ad]) := by
  decide +kernel

/-- D1.4: the shortest input of two blocks. -/
theorem test_sha256_two_blocks :
    outOf (exec .sha256 (loaded (List.replicate 56 0x61))) = some (hexWords
      [0xb35439a4, 0xac6f0948, 0xb6d6f9e3, 0xc6af0f5f, 0x590ce20f, 0x1bde7090, 0xef797068, 0x6ec6738a]) := by
  decide +kernel

/-- D1.12: schedule words of "abc". -/
theorem test_schedule_abc :
    (schedule (pad256 [0x61, 0x62, 0x63])).getD 16 0 = 0x61626380 ∧
      (schedule (pad256 [0x61, 0x62, 0x63])).getD 17 0 = 0x000F0000 ∧
      (schedule (pad256 [0x61, 0x62, 0x63])).getD 63 0 = 0x12B1EDEB := by decide +kernel

/-- D2.2. -/
theorem test_rmd160_abc :
    outOf (exec .rmd160 (loaded [0x61, 0x62, 0x63])) = some (hexWords
      [0x8eb208f7, 0xe05d987a, 0x9b044a8e, 0x98c6b087, 0xf15a0bfc]) := by decide +kernel

/-- D2.5: a full buffer, two blocks. -/
theorem test_rmd160_full :
    outOf (exec .rmd160 (loaded (List.replicate 64 0x61))) = some (hexWords
      [0x9dfb7d37, 0x4ad924f3, 0xf88de962, 0x91c33e9a, 0xbed53e32]) := by decide +kernel

/-- S4. -/
theorem test_hash160_source_vector :
    outOf (exec .hash160 (loaded (0x02 :: keyX))) = some (hexWords
      [0x76997e34, 0xde47c3f6, 0xb9d6aaaa, 0xa42d2a21, 0xbfc14fc7]) := by decide +kernel

/-- D4.2. -/
theorem test_dsha256_payload :
    outOf (exec .dsha256 (loaded (0x0F :: 0x02 :: vectorChecksumDigest))) = some (hexWords
      [0x4d6171ea, 0x5118f913, 0x10b12b1f, 0x3d75ca39, 0x2abaa9e0, 0x86d8ef13, 0x0e1c2114, 0xea096a99]) := by
  decide +kernel

/-- S2. -/
theorem test_chksum_source_vector :
    outOf (exec .chksum (loaded (0x0F :: 0x02 :: vectorChecksumDigest))) = some [0x4d, 0x61, 0x71, 0xea] := by decide +kernel

/-- D4.9. -/
theorem test_sinasm :
    outOf (exec .sinasm (loaded (hexWords [0x76997e34, 0xde47c3f6, 0xb9d6aaaa, 0xa42d2a21, 0xbfc14fc7]))) =
      some (hexWords [0x0f027699, 0x7e34de47, 0xc3f6b9d6, 0xaaaaa42d, 0x2a21bfc1, 0x4fc716e9] ++ [0xc0, 0x31]) := by
  decide +kernel

/-- S1, the first vector. -/
theorem test_b58enc_source_vector :
    outOf (exec .b58enc (loaded (hexWords [0x00123456, 0x789abcde]))) = some (asciiOf "h1iJWQwqX") := by decide +kernel

/-- D5.3 (an all-zero input is a success) and D5.15 (leading zero bytes). -/
theorem test_b58enc_zeros :
    statusOf (exec .b58enc (loaded (List.replicate 64 0))) = some 0x00000002 ∧
      outOf (exec .b58enc (loaded (List.replicate 64 0))) = some [] ∧
      outOf (exec .b58enc (loaded [0x00, 0x00, 0x39])) = some (asciiOf "z") := by decide +kernel

/-- D6.4: an odd last byte. -/
theorem test_kcomp_odd :
    outOf (exec .kcomp (loaded (keyX ++ List.replicate 31 0 ++ [0x01]))) = some (0x03 :: keyX) := by decide +kernel

/-- D6.6: X odd, Y even (the parity is not X's). -/
theorem test_kcomp_x_odd_y_even :
    outOf (exec .kcomp (loaded (List.replicate 31 0 ++ [0x01] ++ List.replicate 32 0))) =
      some (0x02 :: (List.replicate 31 0 ++ [0x01])) := by decide +kernel

/-- S5 and D6.11. -/
theorem test_sin_source_vector :
    outOf (exec .sin (loaded (0x02 :: keyX))) = some (asciiOf "Tf8MXZi8Nf9VckDhYCoWU7rwh2E8mXTnyZi") ∧
      outOf (exec .sin (loaded [])) = some (asciiOf "TfDzYufDGXm6uAUjoqUgVVtMLUQNFEU9YLB") := by decide +kernel

/-- D6.3. -/
theorem test_sinpk_odd :
    outOf (exec .sinpk (loaded (keyX ++ List.replicate 31 0 ++ [0x01]))) =
      some (asciiOf "Tf2uFmnLz2rjwrk5yZFaki3abZAja9zFAAy") := by decide +kernel

/-- D7.5, and D7.8: an ILEN above 64 does not matter. -/
theorem test_xfer :
    (stateOf (exec .xfer { holding (asciiOf "C3CPq7c8PY") with ilen := 200 })).map
        (fun t => (t.ilen, inBytes t, outBytes t, statusWord t)) =
      some (10, asciiOf "C3CPq7c8PY", asciiOf "C3CPq7c8PY", 0x00000002) := by decide +kernel

/-! ## Errors -/

/-- D8.1, D8.2, D8.3: every length but 64 is InvalidKeyLength. -/
theorem test_invalid_key_length :
    statusOf (exec .kcomp (loaded (List.replicate 63 0x11))) = some 0x00000204 ∧
      statusOf (exec .kcomp (pending 8 65)) = some 0x00000204 ∧ statusOf (exec .sinpk (pending 10 0)) = some 0x00000204 := by
  decide +kernel

/-- D8.6 and D8.8a, and as D8.9 a text of 65 characters in OBUF with ILEN = 47. -/
theorem test_invalid_length :
    statusOf (exec .sinasm (loaded (List.replicate 21 0x11))) = some 0x00000604 ∧
      statusOf (exec .sha256 (pending 1 65)) = some 0x00000604 ∧
      (stateOf (exec .xfer { holding (List.replicate 65 0x7a) with ilen := 47 })).map
        (fun t => (t.ilen, t.olen, t.obuf[0], statusWord t)) = some (47, 0, 0, 0x00000604) := by decide +kernel

/-- D8.13: IllegalCommand wins over a wrong length. -/
theorem test_illegal_command : statusOf (step (pending 0x00000108 63)) = some 0x00000504 := by decide +kernel

/-! ## Registers, bus and flags -/

/-- D9.2 and D9.3: read-only and reserved offsets. -/
theorem test_ignored_writes :
    busWrite .word 0x00 0xFFFFFFFF State.reset = State.reset ∧ busWrite .word 0x18 5 State.reset = State.reset ∧
      busWrite .word 0xFC 0xFFFFFFFF State.reset = State.reset ∧ busRead .word 0x3C State.reset = .data 0 ∧
      busRead .word 0xD8 State.reset = .data 0 := by decide +kernel

/-- D9.4: accesses the window refuses. -/
theorem test_bus_errors :
    busRead .word 0x41 State.reset = .busError ∧ busWriteReply .word 0x42 = .busError ∧
      busRead .byte 0x40 State.reset = .busError ∧ busWriteReply .half 0x40 = .busError ∧
      busRead .double 0x40 State.reset = .busError ∧ busWrite .word 0x42 1 State.reset = State.reset := by decide +kernel

/-- D9.5: byte lanes. -/
theorem test_byte_lanes :
    ((busWrite .word 0x40 0xD3408402 State.reset).ibuf.toList.take 4 = [0x02, 0x84, 0x40, 0xd3]) ∧
      ((busWrite .word 0x7C 0x04030201 State.reset).ibuf.toList.drop 60 = [0x01, 0x02, 0x03, 0x04]) ∧
      busRead .word 0x40 (busWrite .word 0x40 0xD3408402 State.reset) = .data 0xD3408402 := by decide +kernel

/-- D9.6: OBUF words, here of the digest of "abc" put in OBUF. -/
theorem test_obuf_words :
    busRead .word 0x80 (holding (hexWords [0xba7816bf])) = .data 0xBF1678BA ∧
      busRead .word 0x84 (holding (hexWords [0xba7816bf])) = .data 0 := by decide +kernel

/-- D9.7: the expansion of `LOAD 616263`. -/
theorem test_load_expansion :
    ((Stmt.load [0x61, 0x62, 0x63]).execute (.start [] State.reset)).encoding =
      [.write 0x40 0x00636261, .write 0x14 0x00000003] := by decide +kernel

/-- D9.8: CTRL. -/
theorem test_ctrl :
    busRead .word 0x08 (busWrite .word 0x08 0x7FFFFFFE State.reset) = .data 0x00000002 ∧
      busRead .word 0x08 (busWrite .word 0x08 3 State.reset) = .data 0x00000003 := by decide +kernel

/-- D9.9 and D9.14: a STATUS write never sets a bit; it ends the error state. -/
theorem test_status_writes :
    busWrite .word 0x0C 0xFFFFFFFF State.reset = State.reset ∧
      statusWord (busWrite .word 0x10 0 failed) = 0x0000050C ∧
      statusWord (busWrite .word 0x0C 0xC (busWrite .word 0x10 0 failed)) = 0x00000000 := by decide +kernel

/-- D9.10: while BUSY = 1 writes are dropped and the output reads as zero. -/
theorem test_busy_gates :
    statusWord (busWrite .word 0x40 0xFFFFFFFF (pending 1 3)) = 0x00000009 ∧
      (busWrite .word 0x10 2 (pending 1 3)).cmdw = 1 ∧
      busRead .word 0x18 { pending 1 3 with olen := 32 } = .data 0 := by decide +kernel

/-- D9.15: the interrupt line follows ERR and EIE as a level. -/
theorem test_irq_level :
    irq (busWrite .word 0x08 2 failed) = true ∧ irq (busWrite .word 0x08 0 (busWrite .word 0x08 2 failed)) = false ∧
      irq (busWrite .word 0x0C 4 (busWrite .word 0x08 2 failed)) = false := by decide +kernel

/-- D9.16: soft reset while BUSY. -/
theorem test_soft_reset : busWrite .word 0x08 0x80000003 { pending 1 3 with die := true, drop := true } = State.reset := by
  decide +kernel

/-- The interface of the host: the next step runs the word `withFetchWord` was given (D7.4). -/
theorem test_with_fetch_word :
    (stateOf (step (State.reset.withFetchWord 32 0x0000000B))).map statusWord = some 0x00000002 := by decide +kernel

/-! ## Host scripts -/

/-- Rule R111: `WAIT` from BUSY = 0, and after a `RUN` dropped for ERR = 1, reads STATUS once, whatever the placement holds. -/
theorem test_wait_idle :
    (Stmt.wait.execute (.start [false, false, true] State.reset)).trace = [.read 0x0C 0x00000000] ∧
      ((Stmt.run .nop).execute (.start [false, false, false] failed)).trace =
        [.write 0x10 0x00000000, .read 0x0C 0x0000050C] := by decide +kernel

/-- Rule R111: `WAIT` reads until BUSY = 0; the placement of rule R275 decides how often. -/
theorem test_wait_polls :
    ((Stmt.run .nop).execute (.start [true, false, false, true] State.reset)).trace =
        [.write 0x10 0x00000000, .read 0x0C 0x00000001, .read 0x0C 0x00000001, .engine, .read 0x0C 0x00000002] ∧
      ((Stmt.run .nop).execute (.start [] State.reset)).trace =
        [.write 0x10 0x00000000, .engine, .read 0x0C 0x00000002] := by decide +kernel

/-- From program P2 of spec/95, its input in place; its comment "host waits for irq = 1" is the statement `awaitIrq`. -/
def scriptP2 : List Stmt :=
  [.wr .ctrl 0x00000003, .cmd .sinpk, .awaitIrq, .rdExpect .status 0x00000002, .unload, .ack true false false]

/-- P2 is well formed under every placement, and its expectation is met. -/
theorem test_p2_well_formed :
    ScriptWellFormed scriptP2 (loaded (keyX ++ List.replicate 32 0)) ∧
      expectationsMetFrom scriptP2 (.start [] (loaded (keyX ++ List.replicate 32 0))) = true :=
  ⟨scriptWellFormed_of_settled _ _ (by decide +kernel) (by decide +kernel), by decide +kernel⟩

/-- Without the wait such a script is well formed where the engine's step comes before the read of STATUS, as P2's table places it
(line 22), and not where it comes after the whole of it. -/
theorem test_p2_without_wait :
    scriptWellFormedAlong [.cmd .nop, .rd .status, .unload] [false, true] State.reset = true ∧
      scriptWellFormedAlong [.cmd .nop, .rd .status, .unload] [false, false, false] State.reset = false := by decide +kernel

/-- From program P3 of spec/95, its input in place. -/
def scriptP3 : List Stmt :=
  [.cmd .kcomp, .rdExpect .status 0x00000001, .wr (.ibuf 0) 0xFFFFFFFF, .rdExpect .olen 0, .wait]

/-- P3's lines 29 to 34 as its table has them: a script that is not well formed has a defined behaviour. -/
theorem test_p3_busy_write :
    (runScript scriptP3 [false, false, false, false] (loaded (List.replicate 64 0x11))).trace =
        [.write 0x10 0x00000008, .read 0x0C 0x00000001, .write 0x40 0xFFFFFFFF, .read 0x18 0x00000000, .engine,
          .read 0x0C 0x0000000A] ∧
      (runScript scriptP3 [false, false, false, false] (loaded (List.replicate 64 0x11))).state.ibuf[0] = 0x11 := by decide +kernel

/-- P3 with the engine's step before line 31: the write of IBUF0 is accepted and DROP stays 0. -/
theorem test_p3_other_placement :
    (runScript scriptP3 [false, false, true] (loaded (List.replicate 64 0x11))).state.ibuf[0] = 0xff ∧
      (runScript scriptP3 [false, false, true] (loaded (List.replicate 64 0x11))).state.drop = false := by decide +kernel

/-- From program P4 of spec/95, its input in place: lines 3 to 11, the soft reset before the engine's step. -/
theorem test_p4_soft_reset :
    (runScript [.wr .ctrl 1, .cmd .sha256, .srst, .rd .status, .run .nop] [false, false, false] (loaded [0x61, 0x62, 0x63])).trace =
      [.write 0x08 0x00000001, .write 0x10 0x00000001, .write 0x08 0x80000000, .read 0x0C 0x00000000, .write 0x10 0x00000000,
        .engine, .read 0x0C 0x00000002] := by decide +kernel

/-- It ends in one state under every placement, as the spec says of P4. -/
theorem test_p4_placements (p : Placement) :
    (runScript [.wr .ctrl 1, .cmd .sha256, .srst, .run .nop] p (loaded [0x61])).state =
      (runScript [.wr .ctrl 1, .cmd .sha256, .srst, .run .nop] [] (loaded [0x61])).state :=
  runScript_state_of_settled _ _ p (by decide +kernel) (by decide +kernel)

/-! ## Witnesses: states and operands that meet the hypotheses of the obligations -/

/-- The invariants hold of a state that is idle, busy or failed, with the output empty. -/
theorem inv_of_empty_output (s : State) (h1 : s.busy = true → s.done = false ∧ s.err = false) (h2 : s.err = false ↔ s.ecode = 0)
    (h3 : s.obuf = Vector.replicate 88 0) (h4 : s.olen = 0) (h5 : ¬ (s.done = true ∧ s.err = true))
    (h6 : s.ecode = 0 ∨ s.ecode = 2 ∨ s.ecode = 5 ∨ s.ecode = 6) : Inv s where
  busy_flags := h1
  err_ecode := h2
  olen_bound := by simp [h4]
  obuf_tail := by simp [h3]
  err_output := by simp [h3, h4]
  done_err := h5
  ecode_raised := h6

theorem inv_pending (w : Word) (n : BitVec 8) : Inv (pending w n) := by
  apply inv_of_empty_output <;> simp [pending, State.reset]

theorem inv_failed : Inv failed := by
  apply inv_of_empty_output <;> simp [failed, State.reset]

theorem witness_engine_step :
    (pending 1 3).busy = true ∧ decode (pending 1 3).cmdw = .ok .sha256 ∧ (pending 1 3).agenda = [] ∧
      ({ pending 1 3 with agenda := [.engine] } : State).agenda = .engine :: [] := by decide

theorem witness_host_turn :
    ({ State.reset with agenda := [.host .hardReset] } : State).agenda = .host .hardReset :: [] ∧
      ({ State.reset with agenda := [.engine] } : State).busy = false ∧
      ({ State.reset with agenda := [.engine] } : State).agenda = .engine :: [] ∧ State.reset.agenda = [] := by decide

/-- The first illegal opcode, and a word whose field ZERO is 1. -/
theorem witness_illegal_word :
    (pending 0x0000000C 0).busy = true ∧ 0x0C ≤ (pending 0x0000000C 0).cmdw.toNat % 256 ∧
      (pending 0x00000100 0).cmdw.toNat / 256 ≠ 0 ∧ State.reset.busy = false ∧ State.reset.err = false := by decide

theorem witness_completion : Inv (pending 1 3) ∧ (pending 1 3).busy = true := ⟨inv_pending 1 3, rfl⟩

/-- The invariants and a step, from a busy state and from a failed one. -/
theorem witness_step_keeps_inv :
    (Inv (pending 0x0C 3) ∧ step (pending 0x0C 3) = .next (raise .illegalCommand (pending 0x0C 3))) ∧
      (Inv failed ∧ step failed = .next failed) :=
  ⟨⟨inv_pending _ _, rfl⟩, inv_failed, rfl⟩

/-- NOP with DIE = 1, while ERR = 1, and from an idle state. -/
theorem witness_nop :
    ({ pending 0 0 with die := true } : State).die = true ∧ failed.err = true ∧
      (State.reset.busy = false ∧ State.reset.err = false ∧ State.reset.ecode = 0 ∧ State.reset.drop = false) := by decide

/-- A completion that leaves more than 64 characters, and a command other than XFER. -/
theorem witness_xfer_clauses :
    (∃ t, exec .b58enc (loaded (List.replicate 47 0xFF)) = .next t) ∧
      (stateOf (exec .b58enc (loaded (List.replicate 47 0xFF)))).map (fun t => t.olen) = some 65 ∧
      (∃ t, exec .kcomp (pending 8 64) = .next t) := ⟨⟨_, rfl⟩, by decide +kernel, _, rfl⟩

/-- ILEN on both sides of each length condition, at the boundary (NOP has none). -/
theorem witness_lengths :
    (pending 1 64).ilen.toNat ≤ 64 ∧ 64 < (pending 1 65).ilen.toNat ∧ (pending 6 20).ilen.toNat = 20 ∧
      (pending 6 21).ilen.toNat ≠ 20 ∧ (pending 8 64).ilen.toNat = 64 ∧ (pending 8 63).ilen.toNat ≠ 64 ∧
      (holding (List.replicate 64 0x7a)).olen.toNat ≤ 64 ∧ 64 < (holding (List.replicate 65 0x7a)).olen.toNat := by
  decide +kernel

/-- Messages of one block and of two, at the boundaries. -/
theorem witness_message_lengths :
    (List.replicate 55 0 : Bytes).length ≤ 55 ∧ 56 ≤ (List.replicate 56 0 : Bytes).length ∧
      (List.replicate 64 0 : Bytes).length ≤ 64 := by decide

/-- An input of value 0, and a text of one character with its index. -/
theorem witness_b58enc :
    (loaded [0x00]).ilen.toNat ≤ 64 ∧ be ((loaded [0x00]).ibuf.toList.take (loaded [0x00]).ilen.toNat) = 0 ∧
      0 < (BitVec.ofNat 8 (b58 [0x39]).length).toNat := by decide +kernel

/-- A Y half with an even last byte. -/
theorem witness_kcomp_example :
    (List.replicate 32 0 : Bytes).length = 32 ∧ (List.replicate 32 0 : Bytes).getD 31 0 &&& 1 = 0 := by decide

/-- One state for each clause: the length holds, it does not, the word is illegal. -/
theorem witness_completion_clauses :
    ((pending 1 64).busy = true ∧ (pending 1 64).err = false ∧ decode (pending 1 64).cmdw = .ok .sha256 ∧
        LengthOk .sha256 (pending 1 64)) ∧
      (decode (pending 1 65).cmdw = .ok .sha256 ∧ ¬ LengthOk .sha256 (pending 1 65)) ∧
      ∀ i, decode (pending 0x0C 65).cmdw ≠ .ok i := by
  refine ⟨⟨rfl, rfl, rfl, ?_⟩, ⟨rfl, ?_⟩, ?_⟩
  · change (64 : BitVec 8).toNat ≤ 64; decide
  · change ¬ (65 : BitVec 8).toNat ≤ 64; decide
  · intro i; cases i <;> decide

/-- A successful command that is not XFER, a failed one, and XFER. -/
theorem witness_frame :
    (∃ t, exec .kcomp (pending 8 64) = .next t) ∧ LengthOk .kcomp (pending 8 64) ∧
      (∃ t, exec .kcomp (pending 8 63) = .next t) ∧ ¬ LengthOk .kcomp (pending 8 63) ∧
      (∃ t, exec .xfer (pending 11 0) = .next t) := by
  refine ⟨⟨_, rfl⟩, ?_, ⟨_, rfl⟩, ?_, ⟨_, rfl⟩⟩
  · change (64 : BitVec 8).toNat = 64; decide
  · change ¬ (63 : BitVec 8).toNat = 64; decide

/-- Two inputs that differ at ILEN and above only, and two outputs that differ at OLEN and above only. -/
theorem witness_same_input :
    ({ loaded [0x61, 0x62] with ilen := 1 } : State).ilen = (loaded [0x61]).ilen ∧
      ({ loaded [0x61, 0x62] with ilen := 1 } : State).ibuf[0] = (loaded [0x61]).ibuf[0] ∧
      ({ loaded [0x61, 0x62] with ilen := 1 } : State).ibuf[1] ≠ (loaded [0x61]).ibuf[1] ∧
      ({ holding [0x61, 0x62] with olen := 1 } : State).olen = (holding [0x61]).olen ∧
      ({ holding [0x61, 0x62] with olen := 1 } : State).obuf[0] = (holding [0x61]).obuf[0] ∧
      (holding [0x61]).olen.toNat ≤ 64 ∧ (loaded [0x61]).err = (loaded [0x61, 0x62]).err := by decide +kernel

theorem witness_failed_completion_irq : ({ pending 12 0 with eie := true } : State).eie = true := rfl

/-- Rotation amounts at both ends, a number below 2^64, a number of zeros that also pads (rule R121). -/
theorem witness_word_and_padding :
    (0 < 1 ∧ 1 < 32) ∧ (0 < 31 ∧ 31 < 32) ∧ 2 ^ 64 - 1 < 2 ^ 64 ∧ (0 + 1 + 55) % 64 = 56 ∧ (0 + 1 + 119) % 64 = 56 := by decide

/-- A 64-byte block, and an index in each range of the loops. -/
theorem witness_block :
    (List.replicate 64 0 : Bytes).length = 64 ∧ 15 < 16 ∧ (16 ≤ 16 ∧ 63 < 64) ∧ 79 < 80 ∧
      0 < (pad256 []).length / 64 ∧ 0 < (pad160 []).length / 64 := by decide

/-- The values 0 and 58, the quotient of one pass on 58, a power above a value, two ordered values. -/
theorem witness_base58_values :
    be [] = 0 ∧ 0 < be [0x3A] ∧ be [0x01] = be [0x3A] / 58 ∧ be [0x01] < 58 ^ 1 ∧ be [0x00, 0x39] ≤ be [0x3A] := by decide

theorem witness_base58_lengths :
    ((64, 88) : Nat × Nat) ∈ [(0, 0), (1, 2), (2, 3), (4, 6), (20, 28), (22, 31), (26, 36), (32, 44), (33, 46), (64, 88)] ∧
      (List.replicate 64 0xFF : Bytes).length = 64 ∧ (List.replicate 24 0xFF : Bytes).length = 24 := by decide

/-- Keys of both parities, and two keys that agree on what the compressor reads and differ in byte 62. -/
theorem witness_keys :
    (List.replicate 64 0 : Bytes).length = 64 ∧ be (List.replicate 64 0) % 2 = 0 ∧ be (List.replicate 63 0 ++ [0x01]) % 2 = 1 ∧
      (List.replicate 62 0 ++ [0x05, 0x00] : Bytes).take 32 = (List.replicate 64 0 : Bytes).take 32 ∧
      ((List.replicate 62 0 ++ [0x05, 0x00] : Bytes).getD 63 0).getLsbD 0 = ((List.replicate 64 0 : Bytes).getD 63 0).getLsbD 0 := by
  decide +kernel

/-- A CTRL word without bit 31 and one with it, STATUS words with and without bit 2. -/
theorem witness_control_words :
    (0x7FFFFFFF : Word).getLsbD 31 = false ∧ (0x80000000 : Word).getLsbD 31 = true ∧ (0x4 : Word).getLsbD 2 = true := by decide

/-- The accept's two cases and the drop's two. -/
theorem witness_accept :
    (State.reset.busy = false ∧ State.reset.err = false) ∧ (pending 1 0).busy = true ∧ failed.err = true ∧ failed.busy = false ∧
      commandWordLegal 0x0000000C = false := by decide

/-- Every offset range of the dropped writes at its ends, and a write that sets DROP. -/
theorem witness_dropped_writes :
    (0x40 ≤ (0x7C : BitVec 8).toNat ∧ (0x7C : BitVec 8).toNat ≤ 0x7C ∧ (0x7C : BitVec 8).toNat % 4 = 0) ∧
      (0x40 ≤ (0x40 : BitVec 8).toNat ∧ (0x40 : BitVec 8).toNat % 4 = 0) ∧
      (pending 1 0).drop = false ∧ (busWrite .word 0x7C 1 (pending 1 0)).drop = true ∧
      failed.drop = false ∧ (busWrite .word 0x10 1 failed).drop = true := by decide +kernel

/-- A length above 64 for a command that reads IBUF. -/
theorem witness_ilen : 64 < (pending 1 65).ilen.toNat ∧ Instr.sha256 ≠ .nop ∧ Instr.sha256 ≠ .xfer := by decide

theorem witness_output_gate :
    (holding [0x61]).busy = false ∧ ({ holding [0x61] with busy := true } : State).busy = true ∧
      ({ holding [0x61] with busy := true } : State).olen.toNat ≤ 64 := by decide +kernel

/-- IBUF words 0 and 15, idle and busy; a byte outside word 15. -/
theorem witness_ibuf : State.reset.busy = false ∧ (pending 1 0).busy = true ∧ 4 * 15 + 3 < 64 ∧ 59 / 4 ≠ 15 := by decide

/-- Both reserved ranges at their ends; the last OBUF offset lies in neither. -/
theorem witness_reserved :
    (0x1C ≤ (0x1C : BitVec 8).toNat ∧ (0x3C : BitVec 8).toNat ≤ 0x3C ∧ (0x3C : BitVec 8).toNat % 4 = 0) ∧
      (0xD8 ≤ (0xD8 : BitVec 8).toNat ∧ (0xFC : BitVec 8).toNat ≤ 0xFC ∧ (0xFC : BitVec 8).toNat % 4 = 0) ∧
      (0xD4 : BitVec 8).toNat < 0xD8 := by decide

theorem witness_refused : AccessSize.byte ≠ .word ∧ (0x42 : BitVec 8).toNat % 4 ≠ 0 ∧ (0x44 : BitVec 8).toNat % 4 = 0 := by decide

/-- An action that is no reset (a write to CTRL without bit 31), and the resets. -/
theorem witness_resets :
    ¬ IsReset (.busWrite .word 0x08 0x3) ∧ IsReset .hardReset ∧ IsReset (.busWrite .word 0x08 0x80000000) := by
  refine ⟨?_, .inl rfl, .inr ⟨0x80000000, by decide, rfl⟩⟩
  rintro (h | ⟨w, hw, h⟩)
  · cases h
  · injection h with _ _ h; subst h; revert hw; decide

/-- The failed state and a turn that does not end its error; the acknowledge of it; STATUS words for ERR and DROP. -/
theorem witness_error_record :
    Inv failed ∧ failed.err = true ∧ takeTurn .engine failed = .next failed ∧
      IsErrorAcknowledge (.busWrite .word 0x0C 0x4) ∧ (0xC : Word).getLsbD 2 = true ∧ (0xC : Word).getLsbD 3 = true :=
  ⟨inv_failed, rfl, rfl, ⟨0x4, by decide, rfl⟩, by decide, by decide⟩

theorem witness_at_reset : AtReset (hostTurn .hardReset (pending 1 3)) := by
  constructor <;> simp [hostTurn, resetBlock, State.reset]

/-- A host action that ends a running command, and an offset that is neither CTRL nor STATUS. -/
theorem witness_abandon :
    (pending 1 3).busy = true ∧ (hostTurn .hardReset (pending 1 3)).busy = false ∧
      (0x10 : BitVec 8) ≠ 0x08 ∧ (0x10 : BitVec 8) ≠ 0x0C := by decide

/-- A busy state with two turns of the host before the engine's. -/
theorem witness_pending_command :
    ({ pending 1 3 with agenda := [.host (.busRead .word 0x0C), .host (.busRead .word 0x0C), .engine] } : State).busy = true := rfl

theorem witness_flag_survives :
    ({ pending 1 3 with agenda := [.host (.busWrite .word 0x0C 0x2), .engine] } : State).busy = true ∧
      ({ pending 1 3 with agenda := [.host (.busWrite .word 0x0C 0x2), .engine] } : State).agenda =
        .host (.busWrite .word 0x0C 0x2) :: .engine :: [] := by decide

/-- A run from an idle block without error: what its first access finds; the longest `LOAD`. -/
theorem witness_script_idle :
    (List.replicate 64 0x11 : Bytes).length ≤ 64 ∧ (ScriptRun.start [false] State.reset).state.busy = false ∧
      (ScriptRun.start [false] State.reset).state.err = false ∧ (ScriptRun.start [false] State.reset).ready.state.busy = false ∧
      (ScriptRun.start [false] State.reset).ready.state.err = false := by decide

/-- A run whose first access finds BUSY = 1, and two whose read of OLEN returns 88 and 0. -/
theorem witness_script_busy :
    (ScriptRun.start [false] (pending 1 3)).ready.state.busy = true ∧
      readReg (ScriptRun.start [] (holding (List.replicate 88 0x31))).ready.state .olen = BitVec.ofNat 32 88 ∧
      readReg (ScriptRun.start [] State.reset).ready.state .olen = BitVec.ofNat 32 0 ∧
      (ScriptRun.start [] State.reset).IsRunFrom State.reset := ⟨by decide, by decide +kernel, by decide, rfl⟩

theorem witness_window : 0xFF < 0x100 ∧ 0x100 + 0xFF < 0x200 := by decide

end Sys2Proof.Tests
end

section
/-! Scope (spec/00_scope.md): every step answers next, the turns of host and idle engine, the leading zero bytes of base58, the
parity of a compressed key. -/

namespace Sys2Proof.Machine

/-! ## One step -/

/-- Every turn of either agent answers a next state: the host's by definition, the engine's by `engineTurn_eq`. -/
theorem takeTurn_next (t : Turn) (s : State) : ∃ u, takeTurn t s = .next u := by
  cases t with
  | host a => exact ⟨hostTurn a s, rfl⟩
  | engine => exact ⟨engineStep s, engineTurn_eq s⟩

/-- Settles O7: a step is one turn, and every turn answers next. -/
theorem everyStepAnswersNext : Obligations.EveryStepAnswersNext :=
  fun s => takeTurn_next (nextTurn s) (popTurn s)

/-- Settles O4: `step` by the head of the agenda; the engine's turn with BUSY = 0 is the identity. -/
theorem hostTurnIsOneStepAndIdleEngineHasNone : Obligations.HostTurnIsOneStepAndIdleEngineHasNone := by
  refine ⟨step_host, fun s ts hb ha => ?_, fun s hb ha => ?_⟩
  · rw [step_engine s ts ha]
    exact engineTurn_idle _ hb
  · rw [step_nil s ha]
    exact engineTurn_idle s hb

/-! ## Leading zero bytes of base58 -/

@[simp] theorem be_replicate_zero (n : Nat) : be (List.replicate n 0x00) = 0 := by
  induction n with
  | zero => rfl
  | succ n ih => rw [List.replicate_succ, be_cons, ih]; simp

/-- Zero bytes in front do not change the integer a byte string is read as. -/
theorem be_replicate_zero_append (n : Nat) (b : Bytes) : be (List.replicate n 0x00 ++ b) = be b := by
  rw [be_append, be_replicate_zero, Nat.zero_mul, Nat.zero_add]

/-- The base58 text depends on the integer only (rule R190). -/
theorem b58_congr {b c : Bytes} (h : be b = be c) : b58 b = b58 c := by
  rw [b58, b58, h]

/-- Settles O36: zero bytes in front leave the integer alone, and the integer gives the text. -/
theorem base58DropsLeadingZeros : Obligations.Base58DropsLeadingZeros :=
  ⟨fun n b => b58_congr (be_replicate_zero_append n b), fun n => b58_congr (c := []) (be_replicate_zero n)⟩

/-! ## The parity of a compressed key -/

theorem kcomp_even {p : Bytes} (h : be p % 2 = 0) : kcomp p = 0x02 :: p.take 32 := by
  rw [kcomp, if_pos h]

theorem kcomp_odd {p : Bytes} (h : be p % 2 = 1) : kcomp p = 0x03 :: p.take 32 := by
  rw [kcomp, if_neg (by omega)]

/-- The compressed key depends on the first 32 bytes and the parity only. -/
theorem kcomp_congr {p q : Bytes} (ht : p.take 32 = q.take 32) (hm : be p % 2 = be q % 2) : kcomp p = kcomp q := by
  rw [kcomp, kcomp, ht, hm]

/-- A big-endian integer has the parity of its last byte, since 256 is even. -/
theorem be_mod_two {n : Nat} {p : Bytes} (h : p.length = n + 1) : be p % 2 = (p.getD n 0).toNat % 2 := by
  rcases List.eq_nil_or_concat' p with rfl | ⟨a, x, rfl⟩
  · cases h
  · obtain rfl : a.length = n := by simpa using h
    have hx : (a ++ [x]).getD a.length 0 = x := by simp
    rw [be_concat, hx]
    omega

/-- The parity of a byte is its bit 0. -/
theorem toNat_mod_two (x : Byte) : x.toNat % 2 = (x.getLsbD 0).toNat := by
  rw [← BitVec.testBit_toNat, Nat.toNat_testBit, pow_zero, Nat.div_one]

/-- Settles O39: the parity of the integer is that of its last byte, by `be_mod_two`, which is bit 0 of that byte. -/
theorem compressedKeyParity : Obligations.CompressedKeyParity := by
  refine ⟨fun p _ => ⟨kcomp_even, kcomp_odd⟩, fun p => be_mod_two, fun p q hp hq ht hb => kcomp_congr ht ?_⟩
  rw [be_mod_two hp, be_mod_two hq, toNat_mod_two, toNat_mod_two, hb]

end Sys2Proof.Machine
end

section
/-! State (spec/10_state.md): what the engine's step and a host write can do, the invariants of rule R46, the flags after a completion. -/

namespace Sys2Proof.Machine

/-! ## What the engine's step can do -/

/-- The codes of rule R230 that a command can raise (rule R234). -/
theorem lengthErrorCode_raised (i : Instr) : lengthErrorCode i = 2 ∨ lengthErrorCode i = 6 := by
  cases i <;> simp [lengthErrorCode]

/-- On a busy block the engine commits a string that fits, keeps the output (NOP), moves it to the input (XFER), or fails with
code 2, 5 or 6 (rules R40, R100, R234). -/
theorem engineStep_cases (s : State) (hb : s.busy = true) :
    (∃ out, out.length ≤ 88 ∧ engineStep s = commitOk out s) ∨ engineStep s = commitKeep s ∨
      engineStep s = commitKeep (moveOutput s) ∨
      ∃ e : CmdError, (e.code = 2 ∨ e.code = 5 ∨ e.code = 6) ∧ engineStep s = raise e s := by
  cases hd : decode s.cmdw with
  | error r =>
    refine .inr (.inr (.inr ⟨.illegalCommand, .inr (.inl rfl), ?_⟩))
    simp only [engineStep, engineTurn_busy s hb, complete_error s r hd]
  | ok i =>
    obtain ⟨-, -, -, out, hl, h⟩ | ⟨-, h⟩ | ⟨-, -, h⟩ | ⟨-, e, he, h⟩ := exec_cases i s <;>
      have ht := engineStep_exec s _ i hb hd h
    · exact .inl ⟨out, hl, ht⟩
    · exact .inr (.inl ht)
    · exact .inr (.inr (.inl ht))
    · refine .inr (.inr (.inr ⟨e, ?_, ht⟩))
      rcases lengthErrorCode_raised i with hc | hc <;> simp [he, hc]

/-- A step is the engine's step or the host's, on the state with the turn taken off the agenda. -/
theorem step_cases (s t : State) (h : step s = .next t) : t = engineStep (popTurn s) ∨ ∃ a, t = hostTurn a (popTurn s) := by
  rw [step] at h
  cases hn : nextTurn s with
  | engine =>
    rw [hn, takeTurn, engineTurn_eq] at h
    exact .inl (Host.Outcome.next.inj h).symm
  | host a =>
    rw [hn, takeTurn] at h
    exact .inr ⟨a, (Host.Outcome.next.inj h).symm⟩

/-! ## The state after a reset -/

theorem reset_atReset : AtReset State.reset where
  ibuf i hi := by rw [reset_ibuf, Vector.getElem_replicate]
  ilen := rfl
  obuf i hi := by rw [reset_obuf, Vector.getElem_replicate]
  olen := rfl
  cmdw := rfl
  flags := ⟨rfl, rfl, rfl, rfl⟩
  ecode := rfl
  enables := ⟨rfl, rfl⟩

/-- A reset of the block gives every piece of state its value of rule R47, from every state (rules R260, R262). -/
theorem resetBlock_atReset (s : State) : AtReset (resetBlock s) :=
  have ⟨ibuf, ilen, obuf, olen, cmdw, flags, ecode, enables⟩ := reset_atReset
  ⟨ibuf, ilen, obuf, olen, cmdw, flags, ecode, enables⟩

/-! ## The invariants of rule R46 -/

/-- The invariants speak of OBUF, OLEN, BUSY, DONE, ERR and ECODE only. -/
theorem Inv.congr {s t : State} (h : Inv s) (hobuf : t.obuf = s.obuf) (holen : t.olen = s.olen) (hbusy : t.busy = s.busy)
    (hdone : t.done = s.done) (herr : t.err = s.err) (hecode : t.ecode = s.ecode) : Inv t where
  busy_flags := by rw [hbusy, hdone, herr]; exact h.busy_flags
  err_ecode := by rw [herr, hecode]; exact h.err_ecode
  olen_bound := by rw [holen]; exact h.olen_bound
  obuf_tail := by rw [holen, hobuf]; exact h.obuf_tail
  err_output := by rw [herr, holen, hobuf]; exact h.err_output
  done_err := by rw [hdone, herr]; exact h.done_err
  ecode_raised := by rw [hecode]; exact h.ecode_raised

theorem inv_of_atReset {t : State} (h : AtReset t) : Inv t := by
  obtain ⟨-, -, hobuf, holen, -, ⟨hbusy, hdone, herr, -⟩, hecode, -⟩ := h
  exact
    { busy_flags := fun _ => ⟨hdone, herr⟩
      err_ecode := by simp [herr, hecode]
      olen_bound := by simp [holen]
      obuf_tail := fun i hi _ => hobuf i hi
      err_output := fun _ => ⟨holen, hobuf⟩
      done_err := by simp [hdone]
      ecode_raised := .inl hecode }

/-- A success takes a running command's flags (DONE = ERR = 0) to DONE = 1: the string fits, with zeros above it. -/
theorem inv_of_commitsOk {s t : State} {out : Bytes} (h : Inv s) (hb : s.busy = true) (c : CommitsOk s t out) : Inv t where
  busy_flags := by simp [c.busy]
  err_ecode := by rw [c.err, c.ecode]; exact h.err_ecode
  olen_bound := by rw [c.olen]; exact c.fits
  obuf_tail i hi hle := by rw [c.obuf i hi, dif_neg (by rw [c.olen] at hle; omega)]
  err_output := by simp [c.err, (h.busy_flags hb).2]
  done_err := by simp [c.err, (h.busy_flags hb).2]
  ecode_raised := by rw [c.ecode]; exact h.ecode_raised

theorem inv_of_commitsKeep {s t : State} (h : Inv s) (hb : s.busy = true) (c : CommitsKeep s t) : Inv t where
  busy_flags := by simp [c.busy]
  err_ecode := by rw [c.err, c.ecode]; exact h.err_ecode
  olen_bound := by rw [c.olen]; exact h.olen_bound
  obuf_tail := by rw [c.olen, c.obuf]; exact h.obuf_tail
  err_output := by simp [c.err, (h.busy_flags hb).2]
  done_err := by simp [c.err, (h.busy_flags hb).2]
  ecode_raised := by rw [c.ecode]; exact h.ecode_raised

/-- A failure leaves DONE = 0 and empties the output. -/
theorem inv_of_commitsError {s t : State} {code : BitVec 4} (h : Inv s) (hb : s.busy = true) (c : CommitsError s t code)
    (hc : code = 2 ∨ code = 5 ∨ code = 6) : Inv t where
  busy_flags := by simp [c.busy]
  err_ecode := by rcases hc with rfl | rfl | rfl <;> simp [c.err, c.ecode]
  olen_bound := by simp [c.olen]
  obuf_tail i hi _ := c.obuf i hi
  err_output _ := ⟨c.olen, c.obuf⟩
  done_err := by simp [c.done, (h.busy_flags hb).1]
  ecode_raised := by rw [c.ecode]; exact .inr hc

theorem inv_engineStep {s : State} (h : Inv s) : Inv (engineStep s) := by
  rcases Bool.eq_false_or_eq_true s.busy with hb | hb
  · obtain ⟨out, hl, ht⟩ | ht | ht | ⟨e, hc, ht⟩ := engineStep_cases s hb <;> rw [ht]
    · exact inv_of_commitsOk h hb (commitOk_commits out s hl)
    · exact inv_of_commitsKeep h hb (commitKeep_commits s)
    · have hm : Inv (moveOutput s) := h.congr (moveOutput_obuf s) (moveOutput_olen s) (moveOutput_busy s)
        (moveOutput_done s) (moveOutput_err s) (moveOutput_ecode s)
      exact inv_of_commitsKeep hm ((moveOutput_busy s).trans hb) (commitKeep_commits (moveOutput s))
    · exact inv_of_commitsError h hb (raise_commits e s) hc
  · rwa [engineStep_idle s hb]

/-- A write of 1 to STATUS bit 2 clears ERR and ECODE together (rules R28, R240). -/
theorem acknowledge_error {w : Word} (hw : w.getLsbD 2 = true) (s : State) :
    (acknowledge w s).err = false ∧ (acknowledge w s).ecode = 0 := by
  simp only [acknowledge_err, acknowledge_ecode, hw, Bool.not_true, Bool.and_false, if_true, and_self]

theorem acknowledge_error_kept {w : Word} (hw : w.getLsbD 2 = false) (s : State) :
    (acknowledge w s).err = s.err ∧ (acknowledge w s).ecode = s.ecode := by
  simp only [acknowledge_err, acknowledge_ecode, hw, Bool.not_false, Bool.and_true, Bool.false_eq_true, if_false, and_self]

theorem acknowledge_done_imp {w : Word} {s : State} (h : (acknowledge w s).done = true) : s.done = true :=
  Bool.and_elim_left h

theorem acknowledge_err_imp {w : Word} {s : State} (h : (acknowledge w s).err = true) : s.err = true :=
  Bool.and_elim_left h

theorem acknowledge_ecode_cases (w : Word) (s : State) : (acknowledge w s).ecode = s.ecode ∨ (acknowledge w s).ecode = 0 := by
  rw [acknowledge_ecode]
  split
  · exact .inr rfl
  · exact .inl rfl

/-- A write to STATUS sets no flag, and ERR and ECODE go together. -/
theorem inv_acknowledge {s : State} (w : Word) (h : Inv s) : Inv (acknowledge w s) where
  busy_flags hb := by simp [h.busy_flags hb]
  err_ecode := by
    rcases Bool.eq_false_or_eq_true (w.getLsbD 2) with hw | hw
    · simp only [acknowledge_error hw s]
    · rw [(acknowledge_error_kept hw s).1, (acknowledge_error_kept hw s).2]
      exact h.err_ecode
  olen_bound := h.olen_bound
  obuf_tail := h.obuf_tail
  err_output he := h.err_output (acknowledge_err_imp he)
  done_err hde := h.done_err ⟨acknowledge_done_imp hde.1, acknowledge_err_imp hde.2⟩
  ecode_raised := by
    rcases acknowledge_ecode_cases w s with hc | hc
    · rw [hc]
      exact h.ecode_raised
    · exact .inl hc

/-- An accepted command clears DONE, and ERR was 0 (rule R39). -/
theorem inv_accepted {s : State} (w : Word) (h : Inv s) (he : s.err = false) :
    Inv { s with cmdw := w, busy := true, done := false } where
  busy_flags _ := ⟨rfl, he⟩
  err_ecode := h.err_ecode
  olen_bound := h.olen_bound
  obuf_tail := h.obuf_tail
  err_output := h.err_output
  done_err := by simp
  ecode_raised := h.ecode_raised

theorem inv_writeReg {s : State} (r : Reg) (w : Word) (h : Inv s) : Inv (writeReg r w s) := by
  obtain ht | ht | ⟨-, ht⟩ | ⟨-, ht⟩ | ⟨-, ht⟩ | ⟨-, -, he, ht⟩ | ⟨-, -, ht⟩ | ⟨j, -, -, ht⟩ := writeReg_cases r w s <;> rw [ht]
  · exact h
  · exact h.congr rfl rfl rfl rfl rfl rfl
  · exact inv_of_atReset (resetBlock_atReset s)
  · exact h.congr rfl rfl rfl rfl rfl rfl
  · exact inv_acknowledge w h
  · exact inv_accepted w h he
  · exact h.congr rfl rfl rfl rfl rfl rfl
  · exact h.congr rfl rfl rfl rfl rfl rfl

/-- A write is the register's, or is refused and changes nothing (rule R64). -/
theorem busWrite_cases (size : AccessSize) (off : BitVec 8) (w : Word) (s : State) :
    (accepted size off = true ∧ busWrite size off w s = writeReg (regAt off) w s) ∨
      (accepted size off = false ∧ busWrite size off w s = s) := by
  cases h : accepted size off <;> simp [busWrite, h]

theorem inv_busWrite {s : State} (size : AccessSize) (off : BitVec 8) (w : Word) (h : Inv s) : Inv (busWrite size off w s) := by
  obtain ⟨-, ht⟩ | ⟨-, ht⟩ := busWrite_cases size off w s <;> rw [ht]
  · exact inv_writeReg _ w h
  · exact h

theorem inv_hostTurn {s : State} (a : HostAction) (h : Inv s) : Inv (hostTurn a s) := by
  cases a with
  | busRead size off => exact h.congr rfl rfl rfl rfl rfl rfl
  | busWrite size off w => exact (inv_busWrite size off w h).congr rfl rfl rfl rfl rfl rfl
  | hardReset => exact inv_of_atReset (resetBlock_atReset s)

/-- Settles O9: a step is the engine's or the host's, and each keeps the invariants. -/
theorem everyStepKeepsInvariants : Obligations.EveryStepKeepsInvariants := by
  intro s t h ht
  have hp : Inv (popTurn s) := h.congr rfl rfl rfl rfl rfl rfl
  obtain rfl | ⟨a, rfl⟩ := step_cases s t ht
  · exact inv_engineStep hp
  · exact inv_hostTurn a hp

/-! ## The flags after a completion -/

/-- Settles O6: DONE = ERR = 0 while BUSY = 1; a success sets DONE alone, a failure ERR alone. -/
theorem completionSetsExactlyOneFlag : Obligations.CompletionSetsExactlyOneFlag := by
  intro s h hb
  obtain ⟨hdone, herr⟩ := h.busy_flags hb
  refine ⟨engineStep s, engineTurn_eq s, engineStep_busy s, ?_⟩
  obtain ⟨out, -, ht⟩ | ht | ht | ⟨e, -, ht⟩ := engineStep_cases s hb <;> rw [ht]
  · exact .inl ⟨commitOk_done out s, (commitOk_err out s).trans herr⟩
  · exact .inl ⟨commitKeep_done s, herr⟩
  · exact .inl ⟨commitKeep_done _, by rw [commitKeep_err, moveOutput_err, herr]⟩
  · exact .inr ⟨(raise_done e s).trans hdone, raise_err e s⟩

end Sys2Proof.Machine
end

section
/-! State (spec/10_state.md): what a command leaves unchanged and depends on, the registers of the window, dropped writes, the
interrupt line, the reset values. -/

namespace Sys2Proof.Machine

/-! ## What a command leaves unchanged -/

theorem moveOutput_keepsControls (s : State) : KeepsControls s (commitKeep (moveOutput s)) where
  cmdw := by rw [commitKeep_cmdw, moveOutput_cmdw]
  drop := by rw [commitKeep_drop, moveOutput_drop]
  die := by rw [commitKeep_die, moveOutput_die]
  eie := by rw [commitKeep_eie, moveOutput_eie]
  agenda := by rw [commitKeep_agenda, moveOutput_agenda]
  reply := by rw [commitKeep_reply, moveOutput_reply]

/-- Settles O23: the frame of each of the four commits of `exec_cases`. -/
theorem everyCommandFrame : Obligations.EveryCommandFrame := by
  intro i s t h
  obtain ⟨hl, hn, hx, out, ho, he⟩ | ⟨rfl, he⟩ | ⟨hl, rfl, he⟩ | ⟨hl, e, -, he⟩ := exec_cases i s <;>
    obtain rfl := Host.Outcome.next.inj (he.symm.trans h)
  · have c := commitOk_commits out s ho
    exact ⟨c.controls, c.busy, fun _ => ⟨c.ibuf, c.ilen⟩, fun hnl => absurd hl hnl,
      fun _ => ⟨c.err, c.ecode, fun hi => absurd hi (not_or_intro hn hx)⟩⟩
  · have c := commitKeep_commits s
    exact ⟨c.controls, c.busy, fun _ => ⟨rfl, rfl⟩, fun hnl => absurd trivial hnl,
      fun _ => ⟨c.err, c.ecode, fun _ => ⟨c.obuf, c.olen⟩⟩⟩
  · have c := commitKeep_commits (moveOutput s)
    exact ⟨moveOutput_keepsControls s, c.busy, fun hx => absurd rfl hx, fun hnl => absurd hl hnl,
      fun _ => ⟨c.err.trans (moveOutput_err s), c.ecode.trans (moveOutput_ecode s),
        fun _ => ⟨c.obuf.trans (moveOutput_obuf s), c.olen.trans (moveOutput_olen s)⟩⟩⟩
  · have c := raise_commits e s
    exact ⟨c.controls, c.busy, fun _ => ⟨c.ibuf, c.ilen⟩, fun _ => ⟨c.ibuf, c.ilen, c.done⟩, fun hok => absurd hok hl⟩

/-! ## What the result of a command depends on -/

/-- The string in front of a buffer depends on its bytes only. -/
theorem take_toList_congr {n : Nat} {v v' : Vector Byte n} {m : Nat} (h : ∀ k (hk : k < n), k < m → v[k] = v'[k]) :
    v.toList.take m = v'.toList.take m := by
  apply List.ext_getElem
  · simp
  · intro k hk _
    have hkn : k < n ∧ k < m := by simpa [and_comm] using hk
    simpa using h k hkn.1 hkn.2

theorem inBytes_congr {s s' : State} (hl : s.ilen = s'.ilen)
    (h : ∀ k (hk : k < 64), k < s.ilen.toNat → s.ibuf[k] = s'.ibuf[k]) : inBytes s = inBytes s' := by
  rw [inBytes, inBytes, ← hl, take_toList_congr h]

theorem outBytes_congr {s s' : State} (hl : s.olen = s'.olen)
    (h : ∀ k (hk : k < 88), k < s.olen.toNat → s.obuf[k] = s'.obuf[k]) : outBytes s = outBytes s' := by
  rw [outBytes, outBytes, ← hl, take_toList_congr h]

/-- The length condition of a command other than XFER looks at ILEN only (rule R101). -/
theorem lengthOk_congr {i : Instr} (hx : i ≠ .xfer) {s s' : State} (h : s.ilen = s'.ilen) : LengthOk i s ↔ LengthOk i s' := by
  cases i with
  | xfer => exact absurd rfl hx
  | _ => simp only [LengthOk, h]

/-- A command other than NOP and XFER commits a function of its input string where its length condition holds, and fails with
its one error where it does not (rules R92, R100). -/
theorem exec_of_input {i : Instr} (hn : i ≠ .nop) (hx : i ≠ .xfer) :
    ∃ (f : Bytes → Bytes) (e : CmdError), ∀ s : State,
      (LengthOk i s ∧ exec i s = .next (commitOk (f (inBytes s)) s)) ∨ (¬ LengthOk i s ∧ exec i s = .next (raise e s)) := by
  have free (f : Bytes → Bytes) : ∃ (g : Bytes → Bytes) (e : CmdError), ∀ s : State,
      (s.ilen.toNat ≤ 64 ∧ runFree f s = .next (commitOk (g (inBytes s)) s)) ∨
        (¬ s.ilen.toNat ≤ 64 ∧ runFree f s = .next (raise e s)) :=
    ⟨f, .invalidLength, fun s => (Nat.lt_or_ge 64 s.ilen.toNat).symm.imp (fun h => ⟨h, runFree_ok f s h⟩)
      fun h => ⟨not_le.2 h, runFree_error f s h⟩⟩
  have exact' (n : Nat) (c : CmdError) (f : Bytes → Bytes) : ∃ (g : Bytes → Bytes) (e : CmdError), ∀ s : State,
      (s.ilen.toNat = n ∧ runExact n c f s = .next (commitOk (g (inBytes s)) s)) ∨
        (¬ s.ilen.toNat = n ∧ runExact n c f s = .next (raise e s)) :=
    ⟨f, c, fun s => (eq_or_ne s.ilen.toNat n).imp (fun h => ⟨h, runExact_ok n c f s h⟩)
      fun h => ⟨h, runExact_error n c f s h⟩⟩
  cases i with
  | nop => exact absurd rfl hn
  | xfer => exact absurd rfl hx
  | sha256 => exact free sha256
  | rmd160 => exact free rmd160
  | hash160 => exact free hash160
  | dsha256 => exact free dsha256
  | chksum => exact free chksum
  | b58enc => exact free b58
  | sin => exact free sinText
  | sinasm => exact exact' 20 .invalidLength sinAssemble
  | kcomp => exact exact' 64 .invalidKeyLength kcomp
  | sinpk => exact exact' 64 .invalidKeyLength fun p => sinText (kcomp p)

/-- Settles O24: equal input strings give equal committed strings, or the same error, by `exec_of_input`; XFER moves equal output
strings. -/
theorem resultDependsOnInputOnly : Obligations.ResultDependsOnInputOnly := by
  refine ⟨fun i s s' t t' hn hx hl hb ht ht' => ?_, fun s s' t t' hl hb ht ht' ho => ?_⟩
  · obtain ⟨f, e, hf⟩ := exec_of_input hn hx
    have hin : inBytes s = inBytes s' := inBytes_congr hl hb
    have hok : LengthOk i s ↔ LengthOk i s' := lengthOk_congr hx hl
    obtain ⟨h, hs⟩ | ⟨h, hs⟩ := hf s <;> obtain rfl := Host.Outcome.next.inj (hs.symm.trans ht) <;>
      obtain ⟨h', hs'⟩ | ⟨h', hs'⟩ := hf s'
    · obtain rfl := Host.Outcome.next.inj (hs'.symm.trans ht')
      simp only [commitOk_obuf, commitOk_olen, commitOk_err, commitOk_ecode, hin, true_and]
      exact And.intro
    · exact absurd (hok.1 h) h'
    · exact absurd (hok.2 h') h
    · obtain rfl := Host.Outcome.next.inj (hs'.symm.trans ht')
      simp only [raise_obuf, raise_olen, raise_err, raise_ecode, and_self, implies_true]
  · obtain rfl := Host.Outcome.next.inj ((exec_xfer_ok s ho).symm.trans ht)
    obtain rfl := Host.Outcome.next.inj ((exec_xfer_ok s' (hl ▸ ho)).symm.trans ht')
    simp only [commitKeep_ibuf, commitKeep_ilen, moveOutput_ibuf, moveOutput_ilen, outBytes_congr hl hb, hl, and_self]

/-! ## The engine's step on a command word -/

theorem decode_encode (i : Instr) : decode (encode i) = .ok i := by
  cases i <;> rfl

theorem tableWord_encode (i : Instr) : tableWord 32 (encode i).toNat = encode i := by
  rw [tableWord, Nat.mod_eq_of_lt (encode i).isLt, BitVec.ofNat_toNat, BitVec.setWidth_eq]

/-- The step from a pending command is its completion, with the turn taken off the agenda (log entry 3). -/
theorem step_pendingCommand (w : Word) (s : State) :
    step (pendingCommand w s) = complete { s with cmdw := w, busy := true, done := false, err := false, ecode := 0 } :=
  (step_engine _ s.agenda (pendingCommand_agenda w s)).trans (engineTurn_busy _ (pendingCommand_busy w s))

/-- Settles O3: BUSY = 1 makes the engine's turn the completion of CMDW, and a legal CMDW is executed. -/
theorem engineStepRunsDecodedCommand : Obligations.EngineStepRunsDecodedCommand := by
  refine ⟨fun s i hb hd ha => ?_, fun s i ts hb hd ha => ?_, fun s i => ?_⟩
  · rw [step_nil s ha, engineTurn_busy s hb, complete_ok s i hd]
  · exact (step_engine s ts ha).trans ((engineTurn_busy { s with agenda := ts } hb).trans (complete_ok _ i hd))
  · rw [State.withFetchWord, tableWord_encode, step_pendingCommand]
    exact complete_ok _ i (decode_encode i)

/-- A reserved opcode names no command (rule R91). -/
theorem commandOfOpcode_reserved {op : BitVec 8} (h : 0x0C ≤ op.toNat) : commandOfOpcode op = none := by
  unfold commandOfOpcode
  split
  case h_13 => rfl
  all_goals omega

/-- The decoder rejects the illegal words of rule R94. -/
theorem decode_of_illegal {w : Word} (h : commandWordLegal w = false) : ∃ e, decode w = .error e := by
  rw [decode]
  split
  · next hz =>
    have ho : 0x0C ≤ (opcodeField w).toNat := by simpa [commandWordLegal, hz] using h
    rw [commandOfOpcode_reserved ho]
    exact ⟨_, rfl⟩
  · exact ⟨_, rfl⟩

/-- An illegal command word fails at its completion (rule R231). -/
theorem engineTurn_illegal {s : State} (hb : s.busy = true) (hw : commandWordLegal s.cmdw = false) :
    engineTurn s = .next (raise .illegalCommand s) := by
  obtain ⟨e, hd⟩ := decode_of_illegal hw
  exact (engineTurn_busy s hb).trans (complete_error s e hd)

/-! ## The address map (rules R61, R64) -/

theorem accepted_iff (size : AccessSize) (off : BitVec 8) : accepted size off = true ↔ size = .word ∧ off.toNat % 4 = 0 := by
  simp [accepted]

/-- An aligned offset that addresses a register is that register's offset. -/
theorem offset_regAt {off : BitVec 8} (ha : off.toNat % 4 = 0) (hr : regAt off ≠ .reserved) : (regAt off).offset = off := by
  apply BitVec.eq_of_toNat_eq
  revert hr
  unfold regAt
  split_ifs <;> intro hr <;> simp [Reg.offset] at hr ⊢ <;> omega

theorem regAt_ibuf {off : BitVec 8} (h : 0x40 ≤ off.toNat) (h' : off.toNat < 0x80) : ∃ j, regAt off = .ibuf j := by
  have hne : ∀ n < 0x40, ¬ off.toNat = n := by omega
  exact ⟨⟨(off.toNat - 0x40) / 4, by omega⟩, by simp [regAt, hne, h, h']⟩

theorem ibuf_offset_toNat (j : Fin 16) : (Reg.ibuf j).offset.toNat = 0x40 + 4 * j.val := by
  simp only [Reg.offset, BitVec.toNat_ofNat]
  omega

/-- A 32-bit write at a register's offset is answered `Okay`. -/
theorem busWriteReply_offset (r : Reg) : busWriteReply .word r.offset = .okay :=
  if_pos (accepted_offset r)

/-! ## Writes to the registers -/

theorem accept_dropped {s : State} (w : Word) (h : s.busy = true ∨ s.err = true) : accept w s = dropWrite s :=
  if_pos (by simpa using h)

theorem accept_idle {s : State} (w : Word) (hb : s.busy = false) (he : s.err = false) :
    accept w s = { s with cmdw := w, busy := true, done := false } :=
  if_neg (by simp [hb, he])

theorem writeIlen_idle {s : State} (w : Word) (h : s.busy = false) : writeIlen w s = { s with ilen := w.extractLsb' 0 8 } :=
  if_neg (Bool.eq_false_iff.1 h)

theorem writeIbuf_idle {s : State} (j : Fin 16) (w : Word) (h : s.busy = false) :
    writeIbuf j w s = { s with ibuf := writeLanes s.ibuf j.val w } :=
  if_neg (Bool.eq_false_iff.1 h)

theorem writeCtrl_reset {w : Word} (s : State) (h : w.getLsbD 31 = true) : writeCtrl w s = resetBlock s :=
  if_pos h

theorem writeCtrl_enables {w : Word} (s : State) (h : w.getLsbD 31 = false) :
    writeCtrl w s = { s with die := w.getLsbD 0, eie := w.getLsbD 1 } :=
  if_neg (Bool.eq_false_iff.1 h)

/-! ## Dropped writes (rule R38) -/

/-- The registers a write to which is dropped while BUSY = 1: CMD, ILEN and IBUF0 to IBUF15. -/
def DroppedWhileBusy (r : Reg) : Prop := r = .cmd ∨ r = .ilen ∨ ∃ j, r = .ibuf j

theorem droppedWhileBusy_offset {r : Reg} (h : DroppedWhileBusy r) :
    r.offset = 0x10 ∨ r.offset = 0x14 ∨ 0x40 ≤ r.offset.toNat ∧ r.offset.toNat ≤ 0x7C ∧ r.offset.toNat % 4 = 0 := by
  obtain rfl | rfl | ⟨j, rfl⟩ := h
  · exact .inl rfl
  · exact .inr (.inl rfl)
  · refine .inr (.inr ?_)
    rw [ibuf_offset_toNat]
    omega

theorem exists_droppedWhileBusy {off : BitVec 8}
    (h : off = 0x10 ∨ off = 0x14 ∨ 0x40 ≤ off.toNat ∧ off.toNat ≤ 0x7C ∧ off.toNat % 4 = 0) :
    ∃ r, DroppedWhileBusy r ∧ r.offset = off := by
  obtain rfl | rfl | ⟨h1, h2, h3⟩ := h
  · exact ⟨.cmd, .inl rfl, rfl⟩
  · exact ⟨.ilen, .inr (.inl rfl), rfl⟩
  · obtain ⟨j, hj⟩ := regAt_ibuf h1 (by omega)
    exact ⟨.ibuf j, .inr (.inr ⟨j, rfl⟩), hj ▸ offset_regAt h3 (by simp [hj])⟩

theorem writeReg_busy {r : Reg} (hr : DroppedWhileBusy r) {s : State} (hb : s.busy = true) (w : Word) :
    writeReg r w s = dropWrite s := by
  obtain rfl | rfl | ⟨j, rfl⟩ := hr
  · exact accept_dropped w (.inl hb)
  · exact if_pos hb
  · exact if_pos hb

/-- A write that sets DROP is a dropped one. -/
theorem writeReg_sets_drop {r : Reg} {w : Word} {s : State} (hd : s.drop = false) (h : (writeReg r w s).drop = true) :
    (s.busy = true ∧ DroppedWhileBusy r) ∨ (s.busy = false ∧ s.err = true ∧ r = .cmd) := by
  cases r with
  | cmd =>
    obtain ⟨hbe, -⟩ | ⟨-, -, ht⟩ := accept_cases w s
    · rcases Bool.eq_false_or_eq_true s.busy with hb | hb
      · exact .inl ⟨hb, .inl rfl⟩
      · exact .inr ⟨hb, hbe.resolve_left (Bool.eq_false_iff.1 hb), rfl⟩
    · simp [writeReg, ht, hd] at h
  | ilen =>
    refine .inl ⟨?_, .inr (.inl rfl)⟩
    by_contra hb
    simp [writeReg, writeIlen_idle w (Bool.eq_false_iff.2 hb), hd] at h
  | ibuf j =>
    refine .inl ⟨?_, .inr (.inr ⟨j, rfl⟩)⟩
    by_contra hb
    simp [writeReg, writeIbuf_idle j w (Bool.eq_false_iff.2 hb), hd] at h
  | ctrl => obtain ⟨-, ht⟩ | ⟨-, ht⟩ := writeCtrl_cases w s <;> simp [writeReg, ht, hd] at h
  | status => simp [writeReg, hd] at h
  | id | cap | olen | obuf j | reserved => simp [writeReg, hd] at h

/-- Settles O44: the droppable registers by their offsets, and `writeReg_sets_drop` for the writes that set DROP. -/
theorem droppedWritesExactly : Obligations.DroppedWritesExactly := by
  refine ⟨fun s off w hb ho => ?_, fun s w _ he => ?_, fun s size off w hd h => ?_⟩
  · obtain ⟨r, hr, rfl⟩ := exists_droppedWhileBusy ho
    exact ⟨(busWrite_offset r w s).trans (writeReg_busy hr hb w), busWriteReply_offset r⟩
  · exact ⟨(busWrite_offset .cmd w s).trans (accept_dropped w (.inr he)), busWriteReply_offset .cmd⟩
  · obtain ⟨hacc, ht⟩ | ⟨-, ht⟩ := busWrite_cases size off w s <;> rw [ht] at h
    · obtain ⟨rfl, hal⟩ := (accepted_iff size off).1 hacc
      refine ⟨rfl, ?_⟩
      obtain ⟨hb, hr⟩ | ⟨hb, he, hr⟩ := writeReg_sets_drop hd h
      · have hoff := offset_regAt hal (by rintro hres; simp [hres, DroppedWhileBusy] at hr)
        exact .inl ⟨hb, hoff ▸ droppedWhileBusy_offset hr⟩
      · have hoff := offset_regAt hal (by simp [hr])
        exact .inr ⟨hb, he, by rw [← hoff, hr]; rfl⟩
    · simp [hd] at h

/-! ## What a host step cannot do -/

/-- `t` is `s` after a host step that is no reset, as far as rules R21, R24 and R39 restrict it. -/
structure HostFrame (s t : State) : Prop where
  /-- OBUF is the engine's. -/
  obuf : t.obuf = s.obuf
  /-- OLEN is the engine's. -/
  olen : t.olen = s.olen
  /-- DONE is not set. -/
  done : t.done = true → s.done = true
  /-- ERR is not set. -/
  err : t.err = true → s.err = true
  /-- ECODE is kept or cleared. -/
  ecode : t.ecode = s.ecode ∨ t.ecode = 0
  /-- A running command goes on and its input stays. -/
  running : s.busy = true → t.busy = true ∧ t.ibuf = s.ibuf ∧ t.ilen = s.ilen
  /-- CMDW and BUSY change by an accept only. -/
  command : t.cmdw = s.cmdw ∧ t.busy = s.busy ∨ s.busy = false ∧ s.err = false ∧ t.busy = true ∧ t.done = false

/-- A step that keeps output, flags, error code and command, and the input while BUSY = 1. -/
theorem HostFrame.of_eq {s t : State} (hobuf : t.obuf = s.obuf) (holen : t.olen = s.olen) (hdone : t.done = s.done)
    (herr : t.err = s.err) (hecode : t.ecode = s.ecode) (hcmdw : t.cmdw = s.cmdw) (hbusy : t.busy = s.busy)
    (hin : s.busy = true → t.ibuf = s.ibuf ∧ t.ilen = s.ilen) : HostFrame s t where
  obuf := hobuf
  olen := holen
  done := by rw [hdone]; exact id
  err := by rw [herr]; exact id
  ecode := .inl hecode
  running hb := ⟨hbusy.trans hb, hin hb⟩
  command := .inl ⟨hcmdw, hbusy⟩

theorem hostFrame_refl (s : State) : HostFrame s s := .of_eq rfl rfl rfl rfl rfl rfl rfl fun _ => ⟨rfl, rfl⟩

/-- The answer on the bus is no part of the block. -/
theorem HostFrame.with_reply {s t : State} (h : HostFrame s t) (x : Option BusReply) : HostFrame s { t with reply := x } :=
  have ⟨obuf, olen, done, err, ecode, running, command⟩ := h
  ⟨obuf, olen, done, err, ecode, running, command⟩

theorem hostFrame_acknowledge (w : Word) (s : State) : HostFrame s (acknowledge w s) where
  obuf := rfl
  olen := rfl
  done := acknowledge_done_imp
  err := acknowledge_err_imp
  ecode := acknowledge_ecode_cases w s
  running hb := ⟨hb, rfl, rfl⟩
  command := .inl ⟨rfl, rfl⟩

theorem hostFrame_accepted {s : State} (w : Word) (hb : s.busy = false) (he : s.err = false) :
    HostFrame s { s with cmdw := w, busy := true, done := false } where
  obuf := rfl
  olen := rfl
  done := nofun
  err := id
  ecode := .inl rfl
  running h := by simp [hb] at h
  command := .inr ⟨hb, he, rfl, rfl⟩

theorem hostFrame_writeReg (r : Reg) (w : Word) (s : State) (hr : r = .ctrl → w.getLsbD 31 = false) :
    HostFrame s (writeReg r w s) := by
  obtain ht | ht | ⟨rfl, -⟩ | ⟨-, ht⟩ | ⟨-, ht⟩ | ⟨-, hb, he, ht⟩ | ⟨-, hb, ht⟩ | ⟨j, -, hb, ht⟩ := writeReg_cases r w s
  · rw [ht]
    exact hostFrame_refl s
  · rw [ht]
    exact .of_eq rfl rfl rfl rfl rfl rfl rfl fun _ => ⟨rfl, rfl⟩
  · have hw : writeReg .ctrl w s = { s with die := w.getLsbD 0, eie := w.getLsbD 1 } := writeCtrl_enables s (hr rfl)
    rw [hw]
    exact .of_eq rfl rfl rfl rfl rfl rfl rfl fun _ => ⟨rfl, rfl⟩
  · rw [ht]
    exact .of_eq rfl rfl rfl rfl rfl rfl rfl fun _ => ⟨rfl, rfl⟩
  · rw [ht]
    exact hostFrame_acknowledge w s
  · rw [ht]
    exact hostFrame_accepted w hb he
  · rw [ht]
    exact .of_eq rfl rfl rfl rfl rfl rfl rfl fun h => by simp [hb] at h
  · rw [ht]
    exact .of_eq rfl rfl rfl rfl rfl rfl rfl fun h => by simp [hb] at h

/-- An accepted write to CTRL that is no reset has bit 31 clear. -/
theorem bit31_of_not_reset {size : AccessSize} {off : BitVec 8} {w : Word} (hacc : accepted size off = true)
    (h : ¬ IsReset (.busWrite size off w)) (hr : regAt off = .ctrl) : w.getLsbD 31 = false := by
  obtain ⟨rfl, hal⟩ := (accepted_iff size off).1 hacc
  obtain rfl : 0x08 = off := by rw [← offset_regAt hal (by simp [hr]), hr]; rfl
  exact Bool.eq_false_iff.2 fun hw => h (.inr ⟨w, hw, rfl⟩)

theorem hostFrame_hostTurn (a : HostAction) (s : State) (h : ¬ IsReset a) : HostFrame s (hostTurn a s) := by
  cases a with
  | busRead size off => exact (hostFrame_refl s).with_reply _
  | busWrite size off w =>
    refine HostFrame.with_reply ?_ _
    obtain ⟨hacc, ht⟩ | ⟨-, ht⟩ := busWrite_cases size off w s <;> rw [ht]
    · exact hostFrame_writeReg _ w s (bit31_of_not_reset hacc h)
    · exact hostFrame_refl s
  | hardReset => exact absurd (.inl rfl) h

/-- Settles O52: the clauses of `HostFrame`. -/
theorem hostStepFrame : Obligations.HostStepFrame := by
  intro s a h
  obtain ⟨obuf, olen, done, err, ecode, running, command⟩ := hostFrame_hostTurn a s h
  exact ⟨obuf, olen, done, err, ecode, running, command⟩

/-! ## Words of the registers as numbers -/

theorem toNat_append_eq {m n : Nat} (x : BitVec m) (y : BitVec n) : (x ++ y).toNat = 2 ^ n * x.toNat + y.toNat := by
  rw [BitVec.toNat_append, ← Nat.shiftLeft_add_eq_or_of_lt y.isLt, Nat.shiftLeft_eq, mul_comm]

theorem ctrlWord_toNat (s : State) : (ctrlWord s).toNat = 2 * s.eie.toNat + s.die.toNat := by
  simp [ctrlWord, @toNat_append_eq 31 1, @toNat_append_eq 30 1]

theorem statusWord_toNat (s : State) : (statusWord s).toNat =
    s.busy.toNat + 2 * s.done.toNat + 4 * s.err.toNat + 8 * s.drop.toNat + 256 * s.ecode.toNat := by
  simp only [statusWord, @toNat_append_eq 31 1, @toNat_append_eq 30 1, @toNat_append_eq 29 1, @toNat_append_eq 28 1,
    @toNat_append_eq 24 4, @toNat_append_eq 20 4, BitVec.toNat_ofBool, BitVec.toNat_ofNat]
  omega

theorem wordOfBytes_toNat (b0 b1 b2 b3 : Byte) :
    (wordOfBytes b0 b1 b2 b3).toNat = b3.toNat + 256 * b2.toNat + 65536 * b1.toNat + 16777216 * b0.toNat := by
  simp only [wordOfBytes, @toNat_append_eq 24 8, @toNat_append_eq 16 8, @toNat_append_eq 8 8]
  omega

/-- Byte `i` of the word a buffer reads as (rules R32, R33). -/
theorem wordByte_readLanes {n : Nat} (v : Vector Byte n) (j : Nat) (h : 4 * j + 3 < n) (i : Nat) (hi : i < 4) :
    wordByte (readLanes v j) i = v[4 * j + i] := by
  rw [readLanes_eq v j h]
  obtain ⟨h0, h1, h2, h3⟩ := wordByte_wordOfBytes v[4 * j + 3] v[4 * j + 2] v[4 * j + 1] v[4 * j]
  interval_cases i
  exacts [h0, h1, h2, h3]

/-! ## The registers -/

theorem encode_toNat_le (i : Instr) : (encode i).toNat ≤ 11 := by
  cases i <;> decide

/-- Settles O40: the two constants, and the fields of CAP computed. -/
theorem idAndCapAreConstant : Obligations.IdAndCapAreConstant :=
  ⟨fun s => ⟨busRead_offset .id s, busRead_offset .cap s⟩, fun s w => ⟨busWrite_offset .id w s, busWrite_offset .cap w s⟩,
    rfl, rfl, encode_toNat_le, ⟨.xfer, rfl⟩, rfl⟩

theorem busWrite_reset {w : Word} (s : State) (h : w.getLsbD 31 = true) : busWrite .word 0x08 w s = resetBlock s :=
  (busWrite_offset .ctrl w s).trans (writeCtrl_reset s h)

/-- Settles O41: the word by its two bits, and the two cases of a write by bit 31. -/
theorem ctrlRegister : Obligations.CtrlRegister :=
  ⟨fun s => ⟨ctrlWord s, busRead_offset .ctrl s, ctrlWord_toNat s⟩,
    fun s w h => (busWrite_offset .ctrl w s).trans (writeCtrl_enables s h),
    fun s _ h => busWrite_reset s h ▸ resetBlock_atReset s, busWriteReply_offset .ctrl⟩

/-- Write-one-to-clear of one flag. -/
theorem and_not_eq_ite (x b : Bool) : (x && !b) = if b then false else x := by
  cases b <;> simp

/-- Settles O42: the word by its five fields, and `acknowledge` field by field. -/
theorem statusRegister : Obligations.StatusRegister :=
  ⟨fun s => ⟨statusWord s, busRead_offset .status s, statusWord_toNat s⟩,
    fun s w => ⟨acknowledge w s, busWrite_offset .status w s, and_not_eq_ite _ _, and_not_eq_ite _ _, acknowledge_ecode w s,
      and_not_eq_ite _ _, rfl⟩⟩

/-- Settles O43: the accept does not look at the word; the completion does, by `engineTurn_illegal`. -/
theorem commandWriteIsAccepted : Obligations.CommandWriteIsAccepted := by
  have haccept (s : State) (w : Word) (hb : s.busy = false) (he : s.err = false) :
      busWrite .word 0x10 w s = { s with cmdw := w, busy := true, done := false } :=
    (busWrite_offset .cmd w s).trans (accept_idle w hb he)
  refine ⟨busRead_offset .cmd, rfl, haccept, fun s w h => (busWrite_offset .cmd w s).trans (accept_dropped w h),
    fun s w hb he hw => ?_⟩
  have c := raise_commits .illegalCommand { s with cmdw := w, busy := true, done := false }
  rw [haccept s w hb he]
  exact ⟨_, engineTurn_illegal rfl hw, c.err, c.ecode⟩

/-- No command that reads IBUF takes more than 64 bytes (rule R101). -/
theorem ilen_le_of_lengthOk {i : Instr} (hn : i ≠ .nop) (hx : i ≠ .xfer) {s : State} (h : LengthOk i s) : s.ilen.toNat ≤ 64 := by
  cases i with
  | nop => exact absurd rfl hn
  | xfer => exact absurd rfl hx
  | sinasm | kcomp | sinpk => simp only [LengthOk] at h; omega
  | _ => exact h

/-- Settles O45: the low byte of the word is stored, and above 64 no length condition holds. -/
theorem ilenRegister : Obligations.IlenRegister := by
  refine ⟨fun s => ⟨s.ilen.setWidth 32, busRead_offset .ilen s, ?_⟩, fun s w hb => ⟨_, rfl, ?_⟩,
    fun s w hb => (busWrite_offset .ilen w s).trans (writeReg_busy (.inr (.inl rfl)) hb w), fun s i hl hn hx => ?_⟩
  · rw [BitVec.toNat_setWidth]
    omega
  · have hw : busWrite .word 0x14 w s = { s with ilen := w.extractLsb' 0 8 } :=
      (busWrite_offset .ilen w s).trans (writeIlen_idle w hb)
    rw [hw]
    exact ⟨by simp, rfl⟩
  · obtain ⟨f, e, hf⟩ := exec_of_input hn hx
    obtain ⟨hok, -⟩ | ⟨-, he⟩ := hf s
    · exact absurd (ilen_le_of_lengthOk hn hx hok) (by omega)
    · exact ⟨_, he, raise_err e s⟩

/-- The output read gate is open while BUSY = 0 (rule R43). -/
theorem readReg_output_idle {s : State} (h : s.busy = false) :
    readReg s .olen = s.olen.setWidth 32 ∧ ∀ j, readReg s (.obuf j) = readLanes s.obuf j.val :=
  ⟨if_neg (Bool.eq_false_iff.1 h), fun _ => if_neg (Bool.eq_false_iff.1 h)⟩

theorem readReg_output_busy {s : State} (h : s.busy = true) : readReg s .olen = 0 ∧ ∀ j, readReg s (.obuf j) = 0 :=
  ⟨if_pos h, fun _ => if_pos h⟩

/-- Settles O46: the two sides of the gate; XFER reads the stored bytes. -/
theorem outputReadGate : Obligations.OutputReadGate := by
  refine ⟨fun s hb => ⟨_, busRead_offset .olen s, ?_⟩, fun s j hb => ⟨_, busRead_offset (.obuf j) s, fun i hi => ?_⟩,
    fun s hb => ?_, fun s w => ⟨busWrite_offset .olen w s, fun j => busWrite_offset (.obuf j) w s⟩, fun s _ ho => ?_⟩
  · rw [(readReg_output_idle hb).1, BitVec.toNat_setWidth]
    omega
  · rw [(readReg_output_idle hb).2 j]
    exact wordByte_readLanes s.obuf j.val (by omega) i hi
  · obtain ⟨holen, hobuf⟩ := readReg_output_busy hb
    exact ⟨(busRead_offset .olen s).trans (congrArg _ holen), fun j => (busRead_offset (.obuf j) s).trans (congrArg _ (hobuf j))⟩
  · exact ⟨_, exec_xfer_ok s ho, moveOutput_ilen s, fun i hi => moveOutput_ibuf_getElem s i hi⟩

/-- Settles O47: the lanes of one word of IBUF, read and written. -/
theorem ibufRegisters : Obligations.IbufRegisters := by
  refine ⟨fun s j => ⟨_, busRead_offset (.ibuf j) s, ?_⟩, fun s j w hb => ⟨_, rfl, ?_⟩,
    fun s j w hb => (busWrite_offset (.ibuf j) w s).trans (writeReg_busy (.inr (.inr ⟨j, rfl⟩)) hb w)⟩
  · rw [readReg, readLanes_eq s.ibuf j.val (by omega), wordOfBytes_toNat]
  · have hw : busWrite .word (BitVec.ofNat 8 (0x40 + 4 * j.val)) w s = { s with ibuf := writeLanes s.ibuf j.val w } :=
      (busWrite_offset (.ibuf j) w s).trans (writeIbuf_idle j w hb)
    rw [hw]
    refine ⟨rfl, fun i hi => ?_, fun k hk hne => ?_⟩
    · have hdiv : (4 * j.val + i) / 4 = j.val := by omega
      have hmod : (4 * j.val + i) % 4 = i := by omega
      simp only [writeLanes_getElem, hdiv, hmod, if_true, wordByte]
    · simp only [writeLanes_getElem, hne, if_false]

/-- Settles O51: the formula of rule R45. -/
theorem interruptLineIsALevel : Obligations.InterruptLineIsALevel := by
  intro s
  simp only [irq, Bool.or_eq_true, Bool.and_eq_true]

/-! ## Reset values -/

/-- The answer on the bus is no part of the block. -/
theorem AtReset.with_reply {t : State} (h : AtReset t) (x : Option BusReply) : AtReset { t with reply := x } :=
  have ⟨ibuf, ilen, obuf, olen, cmdw, flags, ecode, enables⟩ := h
  ⟨ibuf, ilen, obuf, olen, cmdw, flags, ecode, enables⟩

/-- Settles O55: both resets are `resetBlock`; its flags leave the interrupt line low and no completion pending. -/
theorem resetValues : Obligations.ResetValues := by
  refine ⟨reset_atReset, fun s a ha => ?_, fun t ht => ⟨?_, busRead_offset .id t, busRead_offset .cap t, ?_⟩⟩
  · obtain rfl | ⟨w, hw, rfl⟩ := ha
    · exact resetBlock_atReset s
    · rw [hostTurn, busWrite_reset s hw]
      exact (resetBlock_atReset s).with_reply _
  · obtain ⟨-, hdone, herr, -⟩ := ht.flags
    simp [irq, hdone, herr]
  · exact engineTurn_idle t ht.flags.1

end Sys2Proof.Machine
end

section
/-! Memory (spec/20_memory.md): reserved and read-only offsets, refused accesses, reads, an acknowledge before a completion, the
addresses of the window. -/

namespace Sys2Proof.Machine

/-! ## The ranges of the address map (rule R61) -/

theorem regAt_obuf {off : BitVec 8} (h : 0x80 ≤ off.toNat) (h' : off.toNat < 0xD8) : ∃ j, regAt off = .obuf j := by
  have hne : ∀ n < 0x80, ¬ off.toNat = n := by omega
  have hlt : ¬ off.toNat < 0x80 := by omega
  exact ⟨⟨(off.toNat - 0x80) / 4, by omega⟩, by simp [regAt, hne, hlt, h, h']⟩

/-- The two reserved ranges of rule R66. -/
theorem regAt_reserved {off : BitVec 8}
    (h : 0x1C ≤ off.toNat ∧ off.toNat ≤ 0x3C ∨ 0xD8 ≤ off.toNat ∧ off.toNat ≤ 0xFC) : regAt off = .reserved := by
  have hne : ∀ n < 0x1C, ¬ off.toNat = n := by omega
  have hibuf : ¬ (0x40 ≤ off.toNat ∧ off.toNat < 0x80) := by omega
  have hobuf : ¬ (0x80 ≤ off.toNat ∧ off.toNat < 0xD8) := by omega
  simp [regAt, hne, hibuf, hobuf]

/-! ## Accepted and refused accesses (rule R64) -/

theorem accepted_word {off : BitVec 8} (h : off.toNat % 4 = 0) : accepted .word off = true :=
  (accepted_iff .word off).2 ⟨rfl, h⟩

theorem not_accepted {size : AccessSize} {off : BitVec 8} (h : size ≠ .word ∨ off.toNat % 4 ≠ 0) :
    ¬ accepted size off = true := fun hacc =>
  have ⟨hsize, halign⟩ := (accepted_iff size off).1 hacc
  h.elim (absurd hsize) (absurd halign)

theorem busRead_aligned {off : BitVec 8} (h : off.toNat % 4 = 0) (s : State) :
    busRead .word off s = .data (readReg s (regAt off)) :=
  if_pos (accepted_word h)

theorem busWrite_aligned {off : BitVec 8} (h : off.toNat % 4 = 0) (w : Word) (s : State) :
    busWrite .word off w s = writeReg (regAt off) w s :=
  if_pos (accepted_word h)

theorem busWriteReply_aligned {off : BitVec 8} (h : off.toNat % 4 = 0) : busWriteReply .word off = .okay :=
  if_pos (accepted_word h)

/-- Settles O49: both kinds of access look at `accepted` before anything else. -/
theorem refusedAccessesChangeNothing : Obligations.RefusedAccessesChangeNothing :=
  ⟨fun _ _ _ _ h => ⟨if_neg (not_accepted h), if_neg (not_accepted h), if_neg (not_accepted h)⟩,
    fun s _ h => ⟨⟨_, busRead_aligned h s⟩, busWriteReply_aligned h⟩⟩

/-! ## Reserved and read-only registers (rule R66) -/

/-- The registers a write to which is ignored: ID, CAP, OLEN, OBUF0 to OBUF21 and the reserved words. -/
def IgnoresWrites (r : Reg) : Prop := r = .id ∨ r = .cap ∨ r = .olen ∨ (∃ j, r = .obuf j) ∨ r = .reserved

theorem writeReg_ignored {r : Reg} (h : IgnoresWrites r) (w : Word) (s : State) : writeReg r w s = s := by
  obtain rfl | rfl | rfl | ⟨j, rfl⟩ | rfl := h <;> rfl

/-- The offsets rule R66 lists address registers that ignore writes. -/
theorem ignoresWrites_regAt {off : BitVec 8}
    (h : off = 0x00 ∨ off = 0x04 ∨ off = 0x18 ∨ 0x80 ≤ off.toNat ∧ off.toNat ≤ 0xD4 ∨
      0x1C ≤ off.toNat ∧ off.toNat ≤ 0x3C ∨ 0xD8 ≤ off.toNat ∧ off.toNat ≤ 0xFC) : IgnoresWrites (regAt off) := by
  obtain rfl | rfl | rfl | ⟨hlo, hhi⟩ | h := h
  · exact .inl rfl
  · exact .inr (.inl rfl)
  · exact .inr (.inr (.inl rfl))
  · exact .inr (.inr (.inr (.inl (regAt_obuf hlo (by omega)))))
  · exact .inr (.inr (.inr (.inr (regAt_reserved h))))

/-- Settles O48: the reserved offsets by `regAt_reserved`, the ignored writes by `ignoresWrites_regAt`. -/
theorem reservedAndReadOnlyOffsets : Obligations.ReservedAndReadOnlyOffsets := by
  refine ⟨fun s off ha h => ?_, fun s off w ha h => ⟨?_, busWriteReply_aligned ha⟩⟩
  · rw [busRead_aligned ha, regAt_reserved h, readReg]
  · rw [busWrite_aligned ha, writeReg_ignored (ignoresWrites_regAt h)]

/-! ## Reads (rule R65) -/

/-- No register shows the answer held beside the block (log entry 2). -/
theorem readReg_with_reply (r : Reg) (s : State) (x : Option BusReply) : readReg { s with reply := x } r = readReg s r := by
  cases r <;> rfl

theorem busRead_with_reply (size : AccessSize) (off : BitVec 8) (s : State) (x : Option BusReply) :
    busRead size off { s with reply := x } = busRead size off s := by
  rw [busRead, busRead, readReg_with_reply]

/-- Settles O50: a read changes the answer only, and no read shows the answer. -/
theorem readsHaveNoSideEffects : Obligations.ReadsHaveNoSideEffects :=
  fun s _ size' _ off' => ⟨⟨_, rfl⟩, busRead_with_reply size' off' s _⟩

/-! ## An acknowledge before a completion (rule R75) -/

/-- A completion sets DONE or ERR, whatever the flags were before it (rule R40). -/
theorem engineStep_done_or_err {s : State} (hb : s.busy = true) : (engineStep s).done = true ∨ (engineStep s).err = true := by
  obtain ⟨out, -, ht⟩ | ht | ht | ⟨e, -, ht⟩ := engineStep_cases s hb <;> rw [ht]
  · exact .inl (commitOk_done out s)
  · exact .inl (commitKeep_done s)
  · exact .inl (commitKeep_done _)
  · exact .inr (raise_err e s)

/-- The host's write to STATUS, as one turn. -/
theorem hostTurn_status_write (w : Word) (s : State) :
    hostTurn (.busWrite .word 0x0C w) s = { acknowledge w s with reply := some .okay } := by
  have hw : busWrite .word 0x0C w s = acknowledge w s := busWrite_offset .status w s
  have hr : busWriteReply .word 0x0C = .okay := busWriteReply_offset .status
  rw [hostTurn, hw, hr]

/-- Two steps from an agenda of the host's turn and the engine's: the completion finds the state the host leaves. -/
theorem core_run_host_engine {s t : State} {a : HostAction} {ts : List Turn} (h : s.agenda = .host a :: .engine :: ts)
    (ht : hostTurn a { s with agenda := .engine :: ts } = t) (ha : t.agenda = .engine :: ts) :
    Host.Core.run Sys2Proof.core 2 s = .next (engineStep { t with agenda := ts }) := by
  have hhost : step s = .next t := ht ▸ step_host s a (.engine :: ts) h
  have hengine : step t = .next (engineStep { t with agenda := ts }) := (step_engine t ts ha).trans (engineTurn_eq _)
  exact (core_run_succ Sys2Proof.core 1 s t hhost).trans (core_run_succ Sys2Proof.core 0 t _ hengine)

/-- Settles O58: the acknowledge leaves BUSY = 1, and the completion after it sets its flag by `engineStep_done_or_err`. -/
theorem completionFlagSurvivesAcknowledge : Obligations.CompletionFlagSurvivesAcknowledge := by
  intro s w ts hb h
  exact ⟨_, core_run_host_engine h (hostTurn_status_write w _) rfl, engineStep_done_or_err hb⟩

/-! ## The addresses of the window (rule R60) -/

theorem windowOffset_inside (base : Nat) (off : BitVec 8) : windowOffset base (base + off.toNat) = some off := by
  have hin : base ≤ base + off.toNat ∧ base + off.toNat < base + Config.windowBytes :=
    ⟨Nat.le_add_right _ _, Nat.add_lt_add_left off.isLt base⟩
  rw [windowOffset, if_pos hin, Nat.add_sub_cancel_left, BitVec.ofNat_toNat, BitVec.setWidth_eq]

theorem windowOffset_outside {base addr : Nat} (h : addr < base ∨ base + 0xFF < addr) : windowOffset base addr = none := by
  have hout : ¬ (base ≤ addr ∧ addr < base + 256) := by omega
  exact if_neg hout

/-- Settles O60: `BASE + off` is in the window and its distance from BASE is `off`; outside, the range test fails. -/
theorem windowAddresses : Obligations.WindowAddresses :=
  ⟨windowOffset_inside, fun _ _ => windowOffset_outside⟩

end Sys2Proof.Machine
end

section
/-! Encoding (spec/30_encoding.md): the command words and their decoder, when a completion fails, the chained commands as their
stages, the statements of a host script as bus accesses and what CMD and LOAD leave in the block. -/

namespace Sys2Proof.Machine

/-! ## The fields of a command word (rules R90, R94) -/

theorem opcodeField_toNat (w : Word) : (opcodeField w).toNat = w.toNat % 256 := by
  simp [opcodeField]

theorem zeroField_eq_zero_iff (w : Word) : zeroField w = 0 ↔ w.toNat / 256 = 0 := by
  have h : (zeroField w).toNat = w.toNat / 256 := by
    rw [zeroField, BitVec.extractLsb'_toNat, Nat.shiftRight_eq_div_pow]
    exact Nat.mod_eq_of_lt (by omega)
  rw [← h, ← BitVec.toNat_inj]
  rfl

/-- The illegal words of rule R94, by the word's value. -/
theorem commandWordLegal_eq_false_iff (w : Word) :
    commandWordLegal w = false ↔ w.toNat / 256 ≠ 0 ∨ 0x0C ≤ w.toNat % 256 := by
  rw [← opcodeField_toNat, ne_eq, ← zeroField_eq_zero_iff]
  simp [commandWordLegal, or_iff_not_imp_left]

/-! ## The decoder (rules R91, R95) -/

/-- A word below 0x0C is the command word of a command: the twelve rows of rule R91. -/
theorem exists_eq_encode {w : Word} (h : w.toNat < 0x0C) : ∃ i, w = encode i := by
  have row (n : Nat) (hn : n < 0x0C) : ∃ i, n = (encode i).toNat := by
    interval_cases n
    exacts [⟨.nop, rfl⟩, ⟨.sha256, rfl⟩, ⟨.rmd160, rfl⟩, ⟨.hash160, rfl⟩, ⟨.dsha256, rfl⟩, ⟨.chksum, rfl⟩,
      ⟨.sinasm, rfl⟩, ⟨.b58enc, rfl⟩, ⟨.kcomp, rfl⟩, ⟨.sin, rfl⟩, ⟨.sinpk, rfl⟩, ⟨.xfer, rfl⟩]
  obtain ⟨i, hi⟩ := row w.toNat h
  exact ⟨i, BitVec.eq_of_toNat_eq hi⟩

/-- Every word is the command word of a command, or the decoder rejects it as illegal. -/
theorem eq_encode_or_decode_error (w : Word) :
    (∃ i, w = encode i) ∨ (commandWordLegal w = false ∧ ∃ e, decode w = .error e) := by
  rcases Bool.eq_false_or_eq_true (commandWordLegal w) with h | h
  · have hlegal := mt (commandWordLegal_eq_false_iff w).2 (by simp [h])
    exact .inl (exists_eq_encode (by omega))
  · exact .inr ⟨h, decode_of_illegal h⟩

theorem decode_eq_ok_iff (w : Word) (i : Instr) : decode w = .ok i ↔ w = encode i := by
  refine ⟨fun hd => ?_, fun hw => hw ▸ decode_encode i⟩
  obtain ⟨j, rfl⟩ | ⟨-, e, he⟩ := eq_encode_or_decode_error w
  · rw [Except.ok.inj ((decode_encode j).symm.trans hd)]
  · cases he.symm.trans hd

theorem exists_decode_error_iff (w : Word) : (∃ e, decode w = .error e) ↔ commandWordLegal w = false := by
  refine ⟨fun ⟨e, he⟩ => ?_, decode_of_illegal⟩
  obtain ⟨i, rfl⟩ | ⟨h, -⟩ := eq_encode_or_decode_error w
  · cases he.symm.trans (decode_encode i)
  · exact h

/-- Settles O2: `decode` inverts `encode`, and a word that is no command word is illegal, by `eq_encode_or_decode_error`. -/
theorem decoderIsTotalAndExact : Obligations.DecoderIsTotalAndExact :=
  fun w => ⟨decode_eq_ok_iff w, (exists_decode_error_iff w).trans (commandWordLegal_eq_false_iff w)⟩

theorem instr_wellFormed (i : Instr) : i.wellFormed = true := by
  cases i <;> rfl

/-- Settles O1: the twelve words are those of the encoder, and `decode_encode`. -/
theorem twelveCommandWordsDecode : Obligations.TwelveCommandWordsDecode :=
  ⟨⟨decode_encode .nop, decode_encode .sha256, decode_encode .rmd160, decode_encode .hash160, decode_encode .dsha256,
      decode_encode .chksum, decode_encode .sinasm, decode_encode .b58enc, decode_encode .kcomp, decode_encode .sin,
      decode_encode .sinpk, decode_encode .xfer⟩,
    fun i => ⟨instr_wellFormed i, decode_encode i⟩⟩

/-! ## When a completion fails (rules R101, R231 to R233) -/

/-- A command whose length condition holds sets DONE and leaves ERR alone. -/
theorem exec_of_lengthOk {i : Instr} {s : State} (h : LengthOk i s) :
    ∃ t, exec i s = .next t ∧ t.done = true ∧ t.err = s.err := by
  obtain ⟨-, -, -, out, -, he⟩ | ⟨-, he⟩ | ⟨-, -, he⟩ | ⟨hn, -⟩ := exec_cases i s
  · exact ⟨_, he, commitOk_done out s, commitOk_err out s⟩
  · exact ⟨_, he, commitKeep_done s, commitKeep_err s⟩
  · exact ⟨_, he, commitKeep_done _, (commitKeep_err _).trans (moveOutput_err s)⟩
  · exact absurd h hn

/-- A command whose length condition does not hold raises its own error. -/
theorem exec_of_not_lengthOk {i : Instr} {s : State} (h : ¬ LengthOk i s) :
    ∃ e : CmdError, e.code = lengthErrorCode i ∧ exec i s = .next (raise e s) := by
  obtain ⟨hl, -⟩ | ⟨rfl, -⟩ | ⟨hl, -⟩ | ⟨-, he⟩ := exec_cases i s
  · exact absurd hl h
  · exact absurd trivial h
  · exact absurd hl h
  · exact he

/-- A completion whose word names no command raises IllegalCommand, whatever any length is (rule R231). -/
theorem engineStep_illegal {s : State} (hb : s.busy = true) (h : ∀ i, decode s.cmdw ≠ .ok i) :
    engineStep s = raise .illegalCommand s := by
  obtain ⟨i, hi⟩ | ⟨hw, -⟩ := eq_encode_or_decode_error s.cmdw
  · exact absurd ((decode_eq_ok_iff _ i).2 hi) (h i)
  · exact Host.Outcome.next.inj ((engineTurn_eq s).symm.trans (engineTurn_illegal hb hw))

/-- Settles O22: the engine's step by its word, and a legal one by its length condition. -/
theorem completionFailsExactlyOnLengthOrWord : Obligations.CompletionFailsExactlyOnLengthOrWord := by
  refine fun s hb herr => ⟨engineStep s, engineTurn_eq s, fun i hd hl => ?_, fun i hd hl => ?_, fun hd => ?_⟩
  · obtain ⟨t, he, hdone, ht⟩ := exec_of_lengthOk hl
    rw [engineStep_exec s t i hb hd he]
    exact ⟨hdone, ht.trans herr⟩
  · obtain ⟨e, hcode, he⟩ := exec_of_not_lengthOk hl
    rw [engineStep_exec s _ i hb hd he]
    exact ⟨raise_err e s, (raise_ecode e s).trans hcode⟩
  · rw [engineStep_illegal hb hd]
    exact ⟨raise_err _ s, raise_ecode _ s⟩

/-! ## Chained commands and their stages (rules R212, R222) -/

/-- A command that commits a string of at most 64 bytes, and XFER behind it, leave that string as the input of the commands to
follow. -/
theorem execAll_commit_xfer {i : Instr} {s : State} {out : Bytes} (h : exec i s = .next (commitOk out s))
    (hl : out.length ≤ 64) (is : List Instr) :
    ∃ u, execAll (i :: .xfer :: is) s = execAll is u ∧ inBytes u = out ∧ u.ilen.toNat = out.length := by
  obtain ⟨hx, hin, hlen⟩ := xfer_of_commitOk s out hl
  exact ⟨_, (execAll_cons i _ s _ h).trans (execAll_cons .xfer is _ _ hx), hin, hlen⟩

theorem execAll_singleton {i : Instr} {s t : State} (h : exec i s = .next t) : execAll [i] s = .next t :=
  (execAll_cons i [] s t h).trans (execAll_nil t)

/-- The stages of HASH160 commit its digest. -/
theorem execAll_hash160_stages {s : State} (h : s.ilen.toNat ≤ 64) :
    ∃ u, execAll [.sha256, .xfer, .rmd160] s = .next (commitOk (hash160 (inBytes s)) u) := by
  obtain ⟨u, hu, hin, hlen⟩ := execAll_commit_xfer ((exec_sha256 s).trans (runFree_ok sha256 s h))
    (by rw [sha256_length]; omega) [.rmd160]
  have hrmd := (exec_rmd160 u).trans (runFree_ok rmd160 u (by rw [hlen, sha256_length]; omega))
  exact ⟨u, by rw [hu, execAll_singleton hrmd, hin, hash160]⟩

/-- The stages of SIN commit its text. -/
theorem execAll_sin_stages {s : State} (h : s.ilen.toNat ≤ 64) :
    ∃ u, execAll [.hash160, .xfer, .sinasm, .xfer, .b58enc] s = .next (commitOk (sinText (inBytes s)) u) := by
  obtain ⟨u, hu, huin, hulen⟩ := execAll_commit_xfer ((exec_hash160 s).trans (runFree_ok hash160 s h))
    (by rw [hash160_length]; omega) [.sinasm, .xfer, .b58enc]
  have hasm := (exec_sinasm u).trans (runExact_ok 20 _ sinAssemble u (by rw [hulen, hash160_length]))
  obtain ⟨v, hv, hvin, hvlen⟩ := execAll_commit_xfer hasm (by rw [huin, sinAssemble_length, hash160_length]; omega) [.b58enc]
  have hb58 := (exec_b58enc v).trans (runFree_ok b58 v (by rw [hvlen, huin, sinAssemble_length, hash160_length]; omega))
  exact ⟨v, by rw [hu, hv, execAll_singleton hb58, hvin, huin, sinText]⟩

/-- The stages of SINPK commit its text. -/
theorem execAll_sinpk_stages {s : State} (h : s.ilen.toNat = 64) :
    ∃ u, execAll [.kcomp, .xfer, .hash160, .xfer, .sinasm, .xfer, .b58enc] s =
      .next (commitOk (sinText (kcomp (inBytes s))) u) := by
  have hkey : (kcomp (inBytes s)).length = 33 := by rw [kcomp_length, inBytes_length s h.le, h]; rfl
  obtain ⟨u, hu, huin, hulen⟩ := execAll_commit_xfer ((exec_kcomp s).trans (runExact_ok 64 _ kcomp s h)) (by omega)
    [.hash160, .xfer, .sinasm, .xfer, .b58enc]
  obtain ⟨v, hv⟩ := execAll_sin_stages (s := u) (by omega)
  exact ⟨v, by rw [hu, hv, huin]⟩

/-- The output after a commit is the committed string's, whatever the state before it. -/
theorem commitOk_output_congr (out : Bytes) (s u : State) :
    (commitOk out s).obuf = (commitOk out u).obuf ∧ (commitOk out s).olen = (commitOk out u).olen := by
  simp only [commitOk_obuf, commitOk_olen, and_self]

/-- Settles O26: the chained command and its stages commit one string. -/
theorem chainedCommandsEqualTheirStages : Obligations.ChainedCommandsEqualTheirStages := by
  refine ⟨fun s h => ?_, fun s h => ?_, fun s h => ?_⟩
  · obtain ⟨u, hu⟩ := execAll_hash160_stages h
    exact ⟨_, _, (exec_hash160 s).trans (runFree_ok hash160 s h), hu, commitOk_output_congr _ s u⟩
  · obtain ⟨u, hu⟩ := execAll_sin_stages h
    exact ⟨_, _, (exec_sin s).trans (runFree_ok sinText s h), hu, commitOk_output_congr _ s u⟩
  · obtain ⟨u, hu⟩ := execAll_sinpk_stages h
    exact ⟨_, _, (exec_sinpk s).trans (runExact_ok 64 _ _ s h), hu, commitOk_output_congr _ s u⟩

/-! ## The block after one write -/

/-- The host's write to a register, as one turn. -/
theorem hostTurn_write_offset (r : Reg) (w : Word) (s : State) :
    hostTurn (.busWrite .word r.offset w) s = { writeReg r w s with reply := some .okay } := by
  rw [hostTurn, busWrite_offset, busWriteReply_offset]

/-- The host's write to word `j` of IBUF while BUSY = 0, as one turn (rule R32). -/
theorem hostTurn_write_ibuf {j : Nat} (hj : j < 16) (w : Word) {s : State} (hb : s.busy = false) :
    hostTurn (.busWrite .word (BitVec.ofNat 8 (0x40 + 4 * j)) w) s =
      { s with ibuf := writeLanes s.ibuf j w, reply := some .okay } := by
  have h := hostTurn_write_offset (.ibuf ⟨j, hj⟩) w s
  rwa [writeReg, writeIbuf_idle _ w hb] at h

/-- `CMD` found idle and without error is accepted (rules R39, R112). -/
theorem cmd_state {r : ScriptRun} (i : Instr) (hb : r.ready.state.busy = false) (he : r.ready.state.err = false) :
    ((Stmt.cmd i).execute r).state =
      { r.ready.state with cmdw := encode i, busy := true, done := false, reply := some .okay } := by
  rw [Stmt.execute, ScriptRun.write_state, hostTurn_write_offset, writeReg, accept_idle _ hb he]

/-! ## What the writes of LOAD store (rule R111) -/

/-- Byte `k` of word `j` of a string. -/
theorem wordByte_leWord (b : Bytes) (j : Nat) {k : Nat} (hk : k < 4) : wordByte (leWord b j) k = b.getD (4 * j + k) 0 := by
  obtain ⟨h0, h1, h2, h3⟩ := wordByte_wordOfBytes (b.getD (4 * j + 3) 0) (b.getD (4 * j + 2) 0) (b.getD (4 * j + 1) 0)
    (b.getD (4 * j) 0)
  interval_cases k
  exacts [h0, h1, h2, h3]

/-- A buffer after its first `k` words are written with the words of a string. -/
def storeWords {n : Nat} (b : Bytes) : Nat → Vector Byte n → Vector Byte n
  | 0, v => v
  | k + 1, v => writeLanes (storeWords b k v) k (leWord b k)

/-- The first `4 * k` bytes are the string's, zero above its length; the others stay. -/
theorem storeWords_getElem {n : Nat} (b : Bytes) (k : Nat) (v : Vector Byte n) {i : Nat} (hi : i < n) :
    (storeWords b k v)[i] = if i / 4 < k then b.getD i 0 else v[i] := by
  induction k with
  | zero => rfl
  | succ k ih =>
    rw [storeWords, writeLanes_getElem, ih]
    by_cases hk : i / 4 = k
    · rw [if_pos hk, if_pos (by omega), ← hk, wordByte_leWord b _ (Nat.mod_lt i (by omega)), Nat.div_add_mod]
    · rw [if_neg hk]
      exact if_congr (by omega) rfl rfl

/-- A buffer in which a whole string is stored starts with it. -/
theorem take_storeWords {n : Nat} (b : Bytes) (v : Vector Byte n) (h : b.length ≤ n) :
    (storeWords b (wordsFor b.length) v).toList.take b.length = b := by
  apply List.ext_getElem
  · simp [h]
  · intro i _ hi
    have hw : i / 4 < wordsFor b.length := by rw [wordsFor]; omega
    simp [storeWords_getElem, hw, hi]

/-- The first `k` writes of `LOAD`, from an idle block, store `k` words of IBUF. -/
theorem loadWords_state (b : Bytes) {k : Nat} (hk : k ≤ 16) {s : State} (hb : s.busy = false) :
    ∃ x, ((List.range k).map fun j => (BitVec.ofNat 8 (0x40 + 4 * j), leWord b j)).foldl
        (fun s a => hostTurn (.busWrite .word a.1 a.2) s) s = { s with ibuf := storeWords b k s.ibuf, reply := x } := by
  induction k with
  | zero => exact ⟨s.reply, rfl⟩
  | succ k ih =>
    obtain ⟨x, hx⟩ := ih (by omega)
    refine ⟨some .okay, ?_⟩
    rw [List.range_succ, List.map_append, List.foldl_append, hx]
    exact hostTurn_write_ibuf (by omega) _ hb

/-- Several writes that start no command, the first of which finds the block idle, leave one state under every placement. -/
theorem writeAll_ready_state {l : List (BitVec 8 × Word)} (hne : l ≠ []) (hl : ∀ a ∈ l, regAt a.1 ≠ .cmd) {r : ScriptRun}
    (h : r.ready.state.busy = false) :
    (l.foldl (fun q a => q.write a.1 a.2) r).state =
      l.foldl (fun s a => hostTurn (.busWrite .word a.1 a.2) s) r.ready.state := by
  cases l with
  | nil => exact absurd rfl hne
  | cons a l =>
    have ⟨ha, htail⟩ := List.forall_mem_cons.1 hl
    exact writeAll_state l htail (r.write a.1 a.2) (hostTurn_write_idle _ _ _ h ha)

/-- `LOAD` found idle stores its string in IBUF and its length in ILEN (rules R111, R112). -/
theorem load_state {b : Bytes} (hl : b.length ≤ 64) {r : ScriptRun} (hb : r.ready.state.busy = false) :
    ((Stmt.load b).execute r).state =
      { r.ready.state with
        ibuf := storeWords b (wordsFor b.length) r.ready.state.ibuf
        ilen := BitVec.ofNat 8 b.length
        reply := some .okay } := by
  have hne : loadWrites b ≠ [] := by simp [loadWrites]
  obtain ⟨x, hx⟩ := loadWords_state b (k := wordsFor b.length) (by rw [wordsFor]; omega) hb
  have hlow : (BitVec.ofNat 32 b.length).extractLsb' 0 8 = BitVec.ofNat 8 b.length := by
    apply BitVec.eq_of_toNat_eq; simp
  rw [Stmt.execute, writeAll_ready_state hne (loadWrites_ne_cmd b hl) hb, loadWrites, List.foldl_append, hx, List.foldl_cons,
    List.foldl_nil, hostTurn_write_offset, writeReg, writeIlen_idle _ (by exact hb), hlow]

/-- The length byte `LOAD` stores is the length of its string. -/
theorem ofNat_length_toNat {b : Bytes} (hl : b.length ≤ 64) : (BitVec.ofNat 8 b.length).toNat = b.length := by
  rw [BitVec.toNat_ofNat]
  omega

/-! ## The accesses of LOAD, ACK and UNLOAD (rule R111) -/

/-- The writes of `LOAD`: the words of IBUF, then ILEN. -/
theorem load_encoding_words (b : Bytes) (r : ScriptRun) : ((Stmt.load b).execute r).encoding = r.encoding ++
    ((List.range (wordsFor b.length)).map fun j => .write (BitVec.ofNat 8 (0x40 + 4 * j)) (leWord b j)) ++
    [.write Reg.ilen.offset (BitVec.ofNat 32 b.length)] := by
  rw [ScriptRun.load_encoding, loadWrites, List.map_append, List.map_map, ← List.append_assoc]
  rfl

/-- The mask of `ACK` is the sum of its flags' masks. -/
theorem ackMask_eq_sum (d e p : Bool) :
    ackMask d e p = (if d then 0x2 else 0) + (if e then 0x4 else 0) + (if p then 0x8 else 0) := by
  cases d <;> cases e <;> cases p <;> rfl

/-- A read at an aligned offset returns the word of the register there, in the state the access finds. -/
theorem read_aligned_encoding {off : BitVec 8} (h : off.toNat % 4 = 0) (r : ScriptRun) :
    (r.read off).encoding = r.encoding ++ [.read off (readReg r.ready.state (regAt off))] := by
  rw [ScriptRun.read_encoding, ScriptRun.word, ScriptRun.read_state, hostTurn, busRead_aligned h]

/-- Reads from an idle block return the words of one state, under every placement: a read changes nothing (rule R65). -/
theorem readAll_encoding {l : List (BitVec 8)} (hl : ∀ off ∈ l, off.toNat % 4 = 0) {r : ScriptRun}
    (h : r.state.busy = false) :
    (l.foldl (fun q off => q.read off) r).encoding =
      r.encoding ++ l.map fun off => .read off (readReg r.state (regAt off)) := by
  induction l generalizing r with
  | nil => simp
  | cons off l ih =>
    have ⟨hoff, htail⟩ := List.forall_mem_cons.1 hl
    have hs : (r.read off).state = { r.state with reply := some (busRead .word off r.state) } := by
      rw [ScriptRun.read_state, ScriptRun.ready_state_idle r h, hostTurn]
    rw [List.foldl_cons, ih htail (by rw [hs]; exact h), read_aligned_encoding hoff, ScriptRun.ready_state_idle r h, hs,
      List.append_assoc]
    simp only [readReg_with_reply, List.map_cons, List.singleton_append]

/-- The words of OBUF that `UNLOAD` reads, from an idle block. -/
theorem unloadOffsets_encoding {n : Nat} (hn : n ≤ 88) {r : ScriptRun} (h : r.state.busy = false) :
    ((unloadOffsets n).foldl (fun q off => q.read off) r).encoding = r.encoding ++
      (List.range (wordsFor n)).map fun j => .read (BitVec.ofNat 8 (0x80 + 4 * j)) (leWord r.state.obuf.toList j) := by
  rw [unloadOffsets, readAll_encoding _ h, List.map_map]
  · refine congrArg (r.encoding ++ ·) (List.map_congr_left fun j hj => ?_)
    have hlt : j < 22 := by rw [List.mem_range, wordsFor] at hj; omega
    have hreg : regAt (BitVec.ofNat 8 (0x80 + 4 * j)) = .obuf ⟨j, hlt⟩ := regAt_offset (.obuf ⟨j, hlt⟩)
    rw [Function.comp_apply, hreg, (readReg_output_idle h).2, readLanes]
  · simp only [List.mem_map, List.mem_range]
    rintro _ ⟨j, -, rfl⟩
    rw [BitVec.toNat_ofNat]
    omega

/-- `UNLOAD` reads OLEN, then as many words of OBUF as that read asks for: none while BUSY = 1, when OLEN reads as zero (rules
R43, R111). -/
theorem unload_encoding {n : Nat} (hn : n ≤ 88) {r : ScriptRun} (h : readReg r.ready.state .olen = BitVec.ofNat 32 n) :
    (Stmt.unload.execute r).encoding = r.encoding ++ .read Reg.olen.offset (BitVec.ofNat 32 n) ::
      (List.range (wordsFor n)).map fun j => .read (BitVec.ofNat 8 (0x80 + 4 * j)) (leWord r.ready.state.obuf.toList j) := by
  have hword : (BitVec.ofNat 32 n).toNat = n := by rw [BitVec.toNat_ofNat]; omega
  rw [Stmt.execute, ScriptRun.unload, ScriptRun.read_word, h, hword]
  rcases Bool.eq_false_or_eq_true r.ready.state.busy with hb | hb
  · obtain rfl : n = 0 := by
      rw [(readReg_output_busy hb).1] at h
      rw [← hword, ← h]; rfl
    rw [← h]
    exact ScriptRun.read_reg_encoding .olen r
  · rw [unloadOffsets_encoding hn (by exact hb), ScriptRun.read_reg_encoding, h, List.append_assoc]
    rfl

/-- Settles O59: each statement by the lemmas about its accesses, `WAIT` by its two cases, CMD and LOAD by the state they leave. -/
theorem scriptStatementsAreTheirAccesses : Obligations.ScriptStatementsAreTheirAccesses := by
  intro r
  refine ⟨fun x w => ⟨r.write_encoding _ w, r.read_reg_encoding x, rfl⟩, fun b _ => load_encoding_words b r,
    fun i => ⟨r.write_encoding _ _, rfl⟩,
    ⟨r.read_reg_encoding .status, r.wait_idle, r.wait_busy, r.wait_state_busy⟩, fun d e p => ?_,
    fun n hn h => unload_encoding hn h, r.write_encoding _ _, fun s st h => ScriptRun.from_execute h st,
    fun i hb he => ⟨_, (cmd_state i hb he).symm, rfl, rfl, rfl, rfl⟩,
    fun b hl hb => ⟨_, (load_state hl hb).symm, ?_, ofNat_length_toNat hl, rfl, rfl, rfl⟩⟩
  · rw [← ackMask_eq_sum]
    exact r.write_encoding _ _
  · rw [ofNat_length_toNat hl]
    exact take_storeWords b _ hl

end Sys2Proof.Machine
end

section
/-! Primitives (spec/40_primitives.md): word arithmetic, the padding, the schedule and the compression of both hash functions,
their blocks in order, the commands SHA256 and RMD160. -/

namespace Sys2Proof.Machine

/-! ## Word arithmetic (rule R140) -/

/-- The low bits of `x` move up by `n` and the high ones fill the room below, so the two parts add. -/
theorem rotl32_toNat (x : Word) {n : Nat} (hn : n < 32) :
    (rotl32 x n).toNat = x.toNat * 2 ^ n % 2 ^ 32 + x.toNat / 2 ^ (32 - n) := by
  have hsplit : 2 ^ 32 = 2 ^ (32 - n) * 2 ^ n := by rw [← pow_add, Nat.sub_add_cancel hn.le]
  have hlow : x.toNat / 2 ^ (32 - n) < 2 ^ n := Nat.div_lt_of_lt_mul (hsplit ▸ x.isLt)
  have hhigh : x.toNat * 2 ^ n % 2 ^ 32 = (x.toNat % 2 ^ (32 - n)) <<< n := by
    rw [hsplit, Nat.mul_mod_mul_right, Nat.shiftLeft_eq]
  rw [rotl32, BitVec.toNat_rotateLeft, Nat.mod_eq_of_lt hn, Nat.shiftLeft_eq, Nat.shiftRight_eq_div_pow, hhigh,
    Nat.shiftLeft_add_eq_or_of_lt hlow]

theorem rotr32_eq_rotl32 (x : Word) {n : Nat} (hpos : 0 < n) (hn : n < 32) : rotr32 x n = rotl32 x (32 - n) := by
  rw [rotr32, rotl32, BitVec.rotateRight_def, BitVec.rotateLeft_def, Nat.mod_eq_of_lt hn, Nat.mod_eq_of_lt (by omega),
    Nat.sub_sub_self hn.le, BitVec.or_comm]

theorem shr32_toNat (x : Word) (n : Nat) : (shr32 x n).toNat = x.toNat / 2 ^ n := by
  rw [shr32, BitVec.toNat_ushiftRight, Nat.shiftRight_eq_div_pow]

/-- Settles O27: rotations and shift by the lemmas above, the rest by the library's lemma about each operation. -/
theorem wordArithmetic : Obligations.WordArithmetic :=
  ⟨BitVec.toNat_add,
    fun x n hpos hn => ⟨rotl32_toNat x hn, rotr32_eq_rotl32 x hpos hn, shr32_toNat x n⟩,
    fun _ _ _ hi => ⟨BitVec.getLsbD_and, BitVec.getLsbD_or, BitVec.getLsbD_xor, by
      rw [BitVec.getLsbD_not, decide_eq_true hi, Bool.true_and]⟩,
    fun _ => BitVec.not_def⟩

/-! ## The padding (rules R121, R131) -/

theorem padZeros_reaches (len : Nat) : (len + 1 + padZeros len) % 64 = 56 := by
  rw [padZeros]; omega

theorem padZeros_le {len k : Nat} (h : (len + 1 + k) % 64 = 56) : padZeros len ≤ k := by
  rw [padZeros]; omega

/-- The fewest zeros make the padded length the next multiple of 64 with room for nine bytes. -/
theorem padded_length (len : Nat) : len + 1 + padZeros len + 8 = 64 * ((len + 8) / 64 + 1) := by
  rw [padZeros]; omega

theorem pad256_length (m : Bytes) : (pad256 m).length = 64 * ((m.length + 8) / 64 + 1) := by
  simp only [pad256, List.length_append, List.length_singleton, List.length_replicate, be64_length, padded_length]

theorem pad160_length (m : Bytes) : (pad160 m).length = 64 * ((m.length + 8) / 64 + 1) := by
  simp only [pad160, List.length_append, List.length_singleton, List.length_replicate, le64_length, padded_length]

/-- The two paddings have one length. -/
theorem pad160_length_eq (m : Bytes) : (pad160 m).length = (pad256 m).length := by
  rw [pad160_length, pad256_length]

theorem pad256_one_block {m : Bytes} (h : m.length ≤ 55) : (pad256 m).length = 64 := by
  rw [pad256_length]; omega

theorem pad256_two_blocks {m : Bytes} (h : 56 ≤ m.length) (h' : m.length ≤ 64) : (pad256 m).length = 128 := by
  rw [pad256_length]; omega

/-- The base-256 digits of `n`, lowest first: reversed and read big-endian, `k` of them give `n` modulo `256^k`. -/
theorem be_reverse_digits (n k : Nat) :
    be ((List.range k).map fun i => BitVec.ofNat 8 (n / 256 ^ i)).reverse = n % 256 ^ k := by
  induction k with
  | zero => simp [Nat.mod_one]
  | succ k ih =>
    rw [List.range_succ, List.map_append, List.reverse_append, List.map_singleton, List.reverse_singleton,
      List.singleton_append, be_cons, ih, List.length_reverse, List.length_map, List.length_range, BitVec.toNat_ofNat,
      Nat.mod_pow_succ (b := 256)]
    ring

theorem be_be64 {n : Nat} (h : n < 2 ^ 64) : be (be64 n) = n := by
  rw [be64, le64, be_reverse_digits, Nat.mod_eq_of_lt (by omega)]

/-- Settles O28: `padZeros` is the least number of zeros, and the length bytes are the digits of the bit length. -/
theorem paddingOfBothHashes : Obligations.PaddingOfBothHashes := fun m =>
  ⟨⟨padZeros m.length, rfl, rfl, padZeros_reaches m.length, fun _ h => padZeros_le h⟩, pad256_length m, pad160_length m,
    fun n h => ⟨be64_length n, be_be64 h, le64_length n, be_be64 h⟩⟩

theorem pad160_of_length_32 {m : Bytes} (h : m.length = 32) :
    pad160 m = m ++ [0x80] ++ List.replicate 23 0 ++ [0x00, 0x01, 0x00, 0x00, 0x00, 0x00, 0x00, 0x00] := by
  have hlen : le64 (8 * 32) = [0x00, 0x01, 0x00, 0x00, 0x00, 0x00, 0x00, 0x00] := by decide
  rw [pad160, h, hlen, padZeros]

theorem pad256_of_length_32 {m : Bytes} (h : m.length = 32) :
    pad256 m = m ++ [0x80] ++ List.replicate 23 0 ++ [0x00, 0x00, 0x00, 0x00, 0x00, 0x00, 0x01, 0x00] := by
  have hlen : be64 (8 * 32) = [0x00, 0x00, 0x00, 0x00, 0x00, 0x00, 0x01, 0x00] := by decide
  rw [pad256, h, hlen, padZeros]

/-- Settles O33: a digest of 32 bytes pads to one block. -/
theorem secondHashTakesOneBlock : Obligations.SecondHashTakesOneBlock := fun m =>
  ⟨pad160_of_length_32 (sha256_length m), pad256_of_length_32 (sha256_length m), by rw [pad160_length, sha256_length],
    by rw [pad256_length, sha256_length]⟩

/-! ## The SHA-256 message schedule (rule R123) -/

theorem beWord_toNat (b : Bytes) (t : Nat) : (beWord b t).toNat =
    (b.getD (4 * t) 0).toNat * 2 ^ 24 + (b.getD (4 * t + 1) 0).toNat * 2 ^ 16 +
      (b.getD (4 * t + 2) 0).toNat * 2 ^ 8 + (b.getD (4 * t + 3) 0).toNat := by
  rw [beWord, wordOfBytes_toNat]; ring

/-- The word that extends a schedule `ws`, newest word first. -/
def nextScheduleWord (ws : List Word) : Word :=
  ssig1 (ws.getD 1 0) + ws.getD 6 0 + ssig0 (ws.getD 14 0) + ws.getD 15 0

theorem scheduleExtend_succ (n : Nat) (ws : List Word) :
    scheduleExtend (n + 1) ws = scheduleExtend n (nextScheduleWord ws :: ws) := rfl

/-- Extending a schedule keeps the words it has. -/
theorem scheduleExtend_getD_old (n : Nat) {ws : List Word} {i : Nat} (hi : i < ws.length) :
    (scheduleExtend n ws).reverse.getD i 0 = ws.reverse.getD i 0 := by
  induction n generalizing ws with
  | zero => rfl
  | succ n ih =>
    have hi' : i < (nextScheduleWord ws :: ws).length := Nat.lt_succ_of_lt hi
    rw [scheduleExtend_succ, ih hi', List.reverse_cons, List.getD_append _ _ _ _ (by rwa [List.length_reverse])]

/-- Every word past the first `ws.length ≥ 16` is the recurrence's sum of earlier words. -/
theorem scheduleExtend_getD_new (n : Nat) {ws : List Word} (hws : 16 ≤ ws.length) {W : Nat → Word}
    (hW : ∀ i, W i = (scheduleExtend n ws).reverse.getD i 0) {t : Nat} (ht : ws.length ≤ t) (hn : t < ws.length + n) :
    W t = ssig1 (W (t - 2)) + W (t - 7) + ssig0 (W (t - 15)) + W (t - 16) := by
  induction n generalizing ws with
  | zero => omega
  | succ n ih =>
    rcases ht.lt_or_eq with hlt | rfl
    · exact ih (ws := nextScheduleWord ws :: ws) (hws.trans (Nat.le_succ _)) hW hlt (by rw [List.length_cons]; omega)
    · have hnew : W ws.length = nextScheduleWord ws := by
        have hlt : ws.length < (nextScheduleWord ws :: ws).length := Nat.lt_succ_self _
        rw [hW, scheduleExtend_succ, scheduleExtend_getD_old n hlt, List.getD_reverse _ hlt, List.length_cons,
          Nat.add_sub_cancel, Nat.sub_self, List.getD_cons_zero]
      have hold (d : Nat) (hd : d < 16) : W (ws.length - (d + 1)) = ws.getD d 0 := by
        have hlt : ws.length - (d + 1) < ws.length := by omega
        rw [hW, scheduleExtend_getD_old (n + 1) hlt, List.getD_reverse _ hlt,
          show ws.length - 1 - (ws.length - (d + 1)) = d by omega]
      rw [hnew, hold 1 (by omega), hold 6 (by omega), hold 14 (by omega), hold 15 (by omega), nextScheduleWord]

theorem schedule_getD_first (b : Bytes) {t : Nat} (ht : t < 16) : (schedule b).getD t 0 = beWord b t := by
  have hlen : ((List.range 16).map (beWord b)).length = 16 := by rw [List.length_map, List.length_range]
  rw [schedule, scheduleExtend_getD_old 48 (by rwa [List.length_reverse, hlen]), List.reverse_reverse,
    List.getD_eq_getElem _ _ (hlen ▸ ht), List.getElem_map, List.getElem_range]

theorem schedule_getD_recurrence (b : Bytes) {t : Nat} (h16 : 16 ≤ t) (ht : t < 64) :
    (schedule b).getD t 0 = ssig1 ((schedule b).getD (t - 2) 0) + (schedule b).getD (t - 7) 0 +
      ssig0 ((schedule b).getD (t - 15) 0) + (schedule b).getD (t - 16) 0 :=
  scheduleExtend_getD_new 48 (ws := ((List.range 16).map (beWord b)).reverse) (W := fun i => (schedule b).getD i 0)
    (by simp) (fun _ => rfl) (by simpa using h16) (by simpa using ht)

/-- Settles O29: the first sixteen words are kept while the schedule is extended, the later ones obey the recurrence. -/
theorem messageScheduleRecurrence : Obligations.MessageScheduleRecurrence := fun b _ =>
  ⟨schedule_length b, fun t ht => by rw [schedule_getD_first b ht, beWord_toNat],
    fun _ h16 ht => schedule_getD_recurrence b h16 ht⟩

/-! ## The compression of one block (rules R124, R134) -/

theorem k256_length : k256.length = 64 := by decide

/-- The working variables before iteration `t` of the loop of rule R124. -/
def shaVarsAt (hv : ShaVars) (b : Bytes) (t : Nat) : ShaVars :=
  ((k256.zip (schedule b)).take t).foldl (fun v kw => shaRound v kw.1 kw.2) hv

theorem shaVarsAt_succ (hv : ShaVars) (b : Bytes) {t : Nat} (ht : t < 64) :
    shaVarsAt hv b (t + 1) = shaRound (shaVarsAt hv b t) (k256.getD t 0) ((schedule b).getD t 0) := by
  have hk : t < k256.length := k256_length ▸ ht
  have hw : t < (schedule b).length := schedule_length b ▸ ht
  have hz : t < (k256.zip (schedule b)).length := by rw [List.length_zip]; exact lt_min hk hw
  rw [shaVarsAt, ← List.take_concat_get' _ t hz, List.foldl_concat, List.getElem_zip, List.getD_eq_getElem _ _ hk,
    List.getD_eq_getElem _ _ hw, shaVarsAt]

theorem shaCompress_eq (hv : ShaVars) (b : Bytes) : shaCompress hv b =
    { a := hv.a + (shaVarsAt hv b 64).a, b := hv.b + (shaVarsAt hv b 64).b, c := hv.c + (shaVarsAt hv b 64).c,
      d := hv.d + (shaVarsAt hv b 64).d, e := hv.e + (shaVarsAt hv b 64).e, f := hv.f + (shaVarsAt hv b 64).f,
      g := hv.g + (shaVarsAt hv b 64).g, h := hv.h + (shaVarsAt hv b 64).h } := by
  have hlen : (k256.zip (schedule b)).length ≤ 64 := by rw [List.length_zip, k256_length]; exact min_le_left _ _
  rw [shaVarsAt, List.take_of_length_le hlen, shaCompress]

/-- Settles O30: the loop's variables are those of `shaVarsAt`. -/
theorem sha256CompressionLoop : Obligations.Sha256CompressionLoop := by
  intro hv b _
  refine ⟨shaVarsAt hv b, rfl, fun t ht => ⟨_, _, rfl, rfl, ?_⟩, ?_⟩
  · rw [shaVarsAt_succ hv b ht, shaRound]
    exact ⟨rfl, rfl, rfl, rfl, rfl, rfl, rfl, rfl⟩
  · rw [shaCompress_eq]
    exact ⟨rfl, rfl, rfl, rfl, rfl, rfl, rfl, rfl⟩

theorem leWord_toNat (b : Bytes) (t : Nat) : (leWord b t).toNat =
    (b.getD (4 * t) 0).toNat + (b.getD (4 * t + 1) 0).toNat * 2 ^ 8 + (b.getD (4 * t + 2) 0).toNat * 2 ^ 16 +
      (b.getD (4 * t + 3) 0).toNat * 2 ^ 24 := by
  rw [leWord, wordOfBytes_toNat]; ring

theorem rmdLeft_succ (j : Nat) (blk : Bytes) (hv : RmdVars) : rmdLeft (j + 1) blk hv =
    rmdStep j (leWord blk (rmdRL.getD j 0)) (rmdKL.getD (j / 16) 0) (rmdSL.getD j 0) (rmdLeft j blk hv) := by
  rw [rmdLeft, List.range_succ, List.foldl_concat, rmdLeft]

theorem rmdRight_succ (j : Nat) (blk : Bytes) (hv : RmdVars) : rmdRight (j + 1) blk hv =
    rmdStep (79 - j) (leWord blk (rmdRR.getD j 0)) (rmdKR.getD (j / 16) 0) (rmdSR.getD j 0) (rmdRight j blk hv) := by
  rw [rmdRight, List.range_succ, List.foldl_concat, rmdRight]

/-- Settles O31: the variables of the two lines are those of `rmdLeft` and `rmdRight` after `j` steps. -/
theorem ripemd160CompressionLoop : Obligations.Ripemd160CompressionLoop := by
  intro hv blk _
  refine ⟨leWord blk, (rmdLeft · blk hv), (rmdRight · blk hv), fun t _ => leWord_toNat blk t, rfl, rfl, fun j _ => ?_,
    fun j _ => ?_, ?_⟩
  · beta_reduce
    rw [rmdLeft_succ, rmdStep]
    exact ⟨rfl, rfl, rfl, rfl, rfl⟩
  · beta_reduce
    rw [rmdRight_succ, rmdStep]
    exact ⟨rfl, rfl, rfl, rfl, rfl⟩
  · rw [rmdCompress]
    exact ⟨rfl, rfl, rfl, rfl, rfl⟩

/-! ## The blocks in order (rules R127, R137) -/

theorem blocks_succ_concat (n : Nat) (m : Bytes) : blocks (n + 1) m = blocks n m ++ [(m.drop (64 * n)).take 64] := by
  induction n generalizing m with
  | zero => rfl
  | succ n ih => rw [blocks, ih, List.drop_drop, show 64 + 64 * n = 64 * (n + 1) by omega, blocks, List.cons_append]

theorem foldl_blocks_succ {α : Type} (f : α → Bytes → α) (a : α) (n : Nat) (m : Bytes) :
    (blocks (n + 1) m).foldl f a = f ((blocks n m).foldl f a) ((m.drop (64 * n)).take 64) := by
  rw [blocks_succ_concat, List.foldl_concat]

/-- Settles O32: the value before block `i` is the fold of the compression over the first `i` blocks. -/
theorem hashFunctionsTakeBlocksInOrder : Obligations.HashFunctionsTakeBlocksInOrder := fun m =>
  ⟨⟨fun i => (blocks i (pad256 m)).foldl shaCompress h256Init, rfl, fun i _ => foldl_blocks_succ _ _ i _, _, rfl, rfl⟩,
    ⟨fun i => (blocks i (pad160 m)).foldl rmdCompress h160Init, rfl, fun i _ => foldl_blocks_succ _ _ i _, _, rfl, rfl⟩,
    sha256_length m, rmd160_length m⟩

/-! ## The commands (rules R128, R138) -/

/-- A command of free length whose string always has `n` bytes commits it and sets OLEN to `n` (rule R100). -/
theorem runFree_commits {f : Bytes → Bytes} {n : Nat} (hf : ∀ m, (f m).length = n) (hn : n ≤ 88) {s : State}
    (h : s.ilen.toNat ≤ 64) :
    ∃ t, runFree f s = .next t ∧ CommitsOk s t (f (s.ibuf.toList.take s.ilen.toNat)) ∧ t.olen = BitVec.ofNat 8 n := by
  refine ⟨_, runFree_ok f s h, commitOk_commits _ s ?_, ?_⟩
  · rw [hf]; exact hn
  · rw [commitOk_olen, hf]

/-- A command of free length raises InvalidLength above 64 bytes (rule R101). -/
theorem runFree_raises (f : Bytes → Bytes) {s : State} (h : 64 < s.ilen.toNat) :
    ∃ t, runFree f s = .next t ∧ CommitsError s t 6 :=
  ⟨_, runFree_error f s h, raise_commits .invalidLength s⟩

/-- Settles O11: the command is `runFree sha256`, whose string has 32 bytes; the example is computed. -/
theorem sha256Command : Obligations.Sha256Command :=
  ⟨rfl, fun s h => by rw [exec_sha256]; exact runFree_commits sha256_length (by decide) h,
    fun s h => by rw [exec_sha256]; exact runFree_raises sha256 h,
    fun _ => pad256_one_block, fun _ => pad256_two_blocks, by decide +kernel⟩

/-- Settles O12: the command is `runFree rmd160`, whose string has 20 bytes; the example is computed. -/
theorem rmd160Command : Obligations.Rmd160Command :=
  ⟨rfl, fun s h => by rw [exec_rmd160]; exact runFree_commits rmd160_length (by decide) h,
    fun s h => by rw [exec_rmd160]; exact runFree_raises rmd160 h,
    fun m h => by rw [pad160_length_eq, pad256_one_block h],
    fun m h h' => by rw [pad160_length_eq, pad256_two_blocks h h'], by decide +kernel⟩

end Sys2Proof.Machine
end

section
/-! Key compressor (spec/41_key_compressor.md): the first output byte as one bit of the last input byte, a command that
requires one length, the command KCOMP. -/

namespace Sys2Proof.Machine

/-! ## The first byte (rules R150, R152) -/

/-- Bit 0 of a byte, as a byte, is its parity. -/
theorem and_one_eq_mod_two (x : Byte) : x &&& 1 = BitVec.ofNat 8 (x.toNat % 2) := by
  apply BitVec.eq_of_toNat_eq
  rw [BitVec.toNat_and, BitVec.toNat_ofNat, show (1 : Byte).toNat = 1 from rfl, Nat.and_one_is_mod]
  omega

/-- Bit 0 of a byte added to 0x02 gives 0x02 or 0x03. -/
theorem two_add_and_one_eq_two_or_three (x : Byte) : 0x02 + (x &&& 1) = 0x02 ∨ 0x02 + (x &&& 1) = 0x03 := by
  rw [and_one_eq_mod_two]
  rcases Nat.mod_two_eq_zero_or_one x.toNat with h | h <;> rw [h] <;> decide

/-- The parity of 64 bytes as one integer is bit 0 of byte 63, which added to 0x02 gives the first output byte. -/
theorem kcomp_of_length_64 {p : Bytes} (h : p.length = 64) : kcomp p = (0x02 + (p.getD 63 0 &&& 1)) :: p.take 32 := by
  have hm := be_mod_two h
  rw [and_one_eq_mod_two, ← hm]
  rcases Nat.mod_two_eq_zero_or_one (be p) with h0 | h1
  · rw [kcomp_even h0, h0]; rfl
  · rw [kcomp_odd h1, h1]; rfl

/-- 32 bytes X and 32 bytes Y compress to 0x02 plus bit 0 of the last byte of Y, then X. -/
theorem kcomp_append {x y : Bytes} (hx : x.length = 32) (hy : y.length = 32) :
    kcomp (x ++ y) = (0x02 + (y.getD 31 0 &&& 1)) :: x := by
  rw [kcomp_of_length_64 (by rw [List.length_append, hx, hy]), List.getD_append_right _ _ _ _ (by omega), hx,
    List.take_left' hx]

/-! ## A command that requires one length (rule R101) -/

theorem runExact_raises {n : Nat} (e : CmdError) (f : Bytes → Bytes) {s : State} (h : s.ilen.toNat ≠ n) :
    ∃ t, runExact n e f s = .next t ∧ CommitsError s t e.code :=
  ⟨_, runExact_error n e f s h, raise_commits e s⟩

/-- With ILEN = 64 the input string is the whole of IBUF. -/
theorem inBytes_of_ilen_64 {s : State} (h : s.ilen.toNat = 64) : inBytes s = s.ibuf.toList := by
  rw [inBytes, h, List.take_of_length_le (by simp)]

/-! ## The bytes of a committed string (rule R41) -/

theorem CommitsOk.obuf_head {s t : State} {x : Byte} {xs : Bytes} (c : CommitsOk s t (x :: xs)) : t.obuf[0] = x := by
  simp [c.obuf 0 (by omega)]

theorem CommitsOk.obuf_tail {s t : State} {x : Byte} {xs : Bytes} (c : CommitsOk s t (x :: xs)) {i : Nat}
    (hi : i < xs.length) (h : 1 + i < 88) : t.obuf[1 + i] = xs[i] := by
  rw [c.obuf (1 + i) h, dif_pos (by rw [List.length_cons]; omega)]
  simp [Nat.add_comm 1 i]

/-! ## The command KCOMP (rule R151) -/

/-- At ILEN = 64 the command commits 0x02 plus bit 0 of byte 63, then bytes 0 to 31. -/
theorem exec_kcomp_commits {s : State} (h : s.ilen.toNat = 64) :
    ∃ t, exec .kcomp s = .next t ∧ CommitsOk s t ((0x02 + (s.ibuf[63] &&& 1)) :: s.ibuf.toList.take 32) ∧ t.olen = 33 := by
  have hout : kcomp (inBytes s) = (0x02 + (s.ibuf[63] &&& 1)) :: s.ibuf.toList.take 32 := by
    rw [inBytes_of_ilen_64 h, kcomp_of_length_64 (by simp)]
    simp
  have hrun := (exec_kcomp s).trans (runExact_ok 64 .invalidKeyLength kcomp s h)
  rw [hout] at hrun
  refine ⟨_, hrun, commitOk_commits _ s (by simp), ?_⟩
  rw [commitOk_olen]
  simp

/-- Settles O18: the command is `runExact 64 kcomp`, whose first byte is 0x02 plus bit 0 of byte 63 by `kcomp_of_length_64`. -/
theorem kcompCommand : Obligations.KcompCommand := by
  refine ⟨rfl, fun s h => ?_, fun s h => ?_, ?_, ?_, fun y hy hbit => ?_⟩
  · obtain ⟨t, ht, c, holen⟩ := exec_kcomp_commits h
    refine ⟨t, ht, c, holen, ?_, fun i hi => ?_⟩
    · rw [c.obuf_head]
      exact two_add_and_one_eq_two_or_three _
    · rw [c.obuf_tail (by simpa using hi)]
      simp
  · rw [exec_kcomp]
    exact runExact_raises .invalidKeyLength kcomp h
  · exact kcomp_even (by rw [be_replicate_zero])
  · exact kcomp_of_length_64 rfl
  · rw [kcomp_append rfl hy, hbit]
    rfl

end Sys2Proof.Machine
end

section
/-! Hash160 chain (spec/42_hash160.md): the command HASH160. -/

namespace Sys2Proof.Machine

/-- The document's example of rule R161, computed. -/
theorem rmd160_sha256_vectorKey : rmd160 (sha256 vectorKey) = vectorDigest := by decide +kernel

/-- Settles O13: the command is `runFree hash160`, whose string has 20 bytes; its first stage pads the input as SHA256 does. -/
theorem hash160Command : Obligations.Hash160Command := by
  refine ⟨rfl, fun s h => ?_, fun s h => ?_, fun _ => pad256_one_block, fun _ => pad256_two_blocks, rmd160_sha256_vectorKey⟩
  · rw [exec_hash160]
    exact runFree_commits hash160_length (by decide) h
  · rw [exec_hash160]
    exact runFree_raises hash160 h

end Sys2Proof.Machine
end

section
/-! SIN and checksum (spec/43_sin_checksum.md): the commands DSHA256, CHKSUM and SINASM, the base58 text of a SIN. -/

namespace Sys2Proof.Machine

/-! ## The document's examples, computed -/

/-- The first four bytes of the double digest in the examples of rules R171 and R173. -/
theorem chksum_vectorChecksumDigest : chksum (sinPayload vectorChecksumDigest) = [0x4d, 0x61, 0x71, 0xea] := by decide +kernel

/-- The checksum in rule R176's example for `vectorDigest`. -/
theorem chksum_vectorDigest : chksum (sinPayload vectorDigest) = [0x16, 0xe9, 0xc0, 0x31] := by decide +kernel

/-! ## The commands DSHA256 and CHKSUM (rules R171, R173) -/

/-- Settles O14: the command is `runFree dsha256`, whose string has 32 bytes; the example is `chksum`'s by its definition. -/
theorem dsha256Command : Obligations.Dsha256Command := by
  refine ⟨rfl, fun s h => ?_, fun s h => ?_, chksum_vectorChecksumDigest⟩
  · rw [exec_dsha256]
    exact runFree_commits dsha256_length (by decide) h
  · rw [exec_dsha256]
    exact runFree_raises dsha256 h

/-- Settles O15: the command is `runFree chksum`, whose string has four bytes. -/
theorem chksumCommand : Obligations.ChksumCommand := by
  refine ⟨rfl, fun s h => ?_, fun s h => ?_, chksum_vectorChecksumDigest⟩
  · rw [exec_chksum]
    exact runFree_commits chksum_length (by decide) h
  · rw [exec_chksum]
    exact runFree_raises chksum h

/-! ## The command SINASM (rule R176) -/

theorem sinAssemble_eq (d : Bytes) : sinAssemble d = 0x0F :: 0x02 :: (d ++ chksum (sinPayload d)) := rfl

theorem sinAssemble_of_chksum {d c : Bytes} (h : chksum (sinPayload d) = c) : sinAssemble d = [0x0F, 0x02] ++ d ++ c := by
  rw [sinAssemble_eq, h]
  rfl

/-- A command of exactly `n` bytes whose string then has `k` bytes commits it and sets OLEN to `k` (rule R100). -/
theorem runExact_commits {n k : Nat} (e : CmdError) {f : Bytes → Bytes} (hf : ∀ m : Bytes, m.length = n → (f m).length = k)
    (hn : n ≤ 64) (hk : k ≤ 88) {s : State} (h : s.ilen.toNat = n) :
    ∃ t, runExact n e f s = .next t ∧ CommitsOk s t (f (s.ibuf.toList.take n)) ∧ t.olen = BitVec.ofNat 8 k := by
  have hin : inBytes s = s.ibuf.toList.take n := by rw [inBytes, h]
  have hlen : (f (inBytes s)).length = k := hf _ ((inBytes_length s (h.trans_le hn)).trans h)
  refine ⟨_, runExact_ok n e f s h, hin ▸ commitOk_commits _ s (hlen.trans_le hk), ?_⟩
  rw [commitOk_olen, hlen]

/-- Settles O16: the command is `runExact 20 sinAssemble`, whose string is 0F 02, the 20 bytes and their checksum. -/
theorem sinasmCommand : Obligations.SinasmCommand := by
  refine ⟨rfl, fun s h => ?_, fun s h => ?_, sinAssemble_of_chksum chksum_vectorDigest,
    sinAssemble_of_chksum chksum_vectorChecksumDigest⟩
  · obtain ⟨t, ht, c, holen⟩ := runExact_commits .invalidLength (f := sinAssemble) (k := 26)
      (fun d hd => by rw [sinAssemble_length, hd]) (by decide) (by decide) h
    rw [sinAssemble_eq] at c
    refine ⟨t, _, rfl, (exec_sinasm s).trans ht, c, holen, c.obuf_head, c.obuf_tail (i := 0) (by simp) (by decide),
      fun i hi => ?_⟩
    have hbyte := c.obuf_tail (i := i + 1) (by simp; omega) (by omega)
    simpa [show 1 + (i + 1) = 2 + i by omega, hi] using hbyte
  · rw [exec_sinasm]
    exact runExact_raises .invalidLength sinAssemble h

/-! ## The text of a SIN (rule R198) -/

/-- The digits of a number are those of its quotient by `58 ^ k`, then `k` more. -/
theorem base58Digits_div_pow (k : Nat) {v : Nat} (h : 58 ^ k ≤ v) :
    ∃ ds, ds.length = k ∧ base58Digits v = base58Digits (v / 58 ^ k) ++ ds := by
  induction k generalizing v with
  | zero => exact ⟨[], rfl, by rw [pow_zero, Nat.div_one, List.append_nil]⟩
  | succ k ih =>
    rw [pow_succ] at h
    obtain ⟨ds, hlen, hds⟩ := ih ((Nat.le_div_iff_mul_le (by decide)).2 h)
    refine ⟨ds ++ [v % 58], by rw [List.length_append, hlen, List.length_singleton], ?_⟩
    rw [base58Digits_pos v ((by positivity : 0 < 58 ^ k * 58).trans_le h), hds, Nat.div_div_eq_div_mul, ← pow_succ',
      List.append_assoc]

/-- A 26-byte value that begins 0F 02 has only two quotients by `58 ^ 33`: digits 26 (`T`) and 37 (`e`), or 26 and 38 (`f`). -/
theorem be_sinPayload_div_pow {b : Bytes} (h : b.length = 24) :
    be (sinPayload b) / 58 ^ 33 = 26 * 58 + 37 ∨ be (sinPayload b) / 58 ^ 33 = 26 * 58 + 38 := by
  have hlt := be_lt b
  have hv : be (sinPayload b) = 0x0F * 256 ^ 25 + (0x02 * 256 ^ 24 + be b) := by
    rw [sinPayload, be_cons, be_cons, List.length_cons, h]
    rfl
  rw [h] at hlt
  omega

/-- The text of a 26-byte value that begins 0F 02 is `T`, then `e` or `f`, then 33 characters. -/
theorem b58_sinPayload {b : Bytes} (h : b.length = 24) :
    ∃ c cs, (c = 0x65 ∨ c = 0x66) ∧ cs.length = 33 ∧ b58 (sinPayload b) = 0x54 :: c :: cs := by
  have hq := be_sinPayload_div_pow h
  obtain ⟨ds, hlen, hds⟩ := base58Digits_div_pow 33 (v := be (sinPayload b)) (by omega)
  have hcs : (ds.map alphaByte).length = 33 := by rw [List.length_map, hlen]
  rw [b58, hds, List.map_append]
  rcases hq with hq | hq <;> rw [hq]
  · exact ⟨0x65, _, .inl rfl, hcs, rfl⟩
  · exact ⟨0x66, _, .inr rfl, hcs, rfl⟩

/-- Settles O38: the text by its first two characters and the 33 behind them. -/
theorem sinTextHas35Characters : Obligations.SinTextHas35Characters := by
  intro b h
  obtain ⟨c, cs, hc, hcs, htext⟩ := b58_sinPayload h
  rw [sinPayload] at htext
  rw [htext, List.length_cons, List.length_cons, hcs]
  exact ⟨rfl, rfl, hc⟩

end Sys2Proof.Machine
end

section
/-! Base58 (spec/44_base58.md): the alphabet, the text of a byte string in closed form, its length, the command B58ENC. -/

namespace Sys2Proof.Machine

/-! ## The alphabet (rules R191, R192) -/

theorem alphabet_nodup : alphabet.Nodup := by decide

theorem alphabet_bit7 : ∀ b ∈ alphabet, b.getLsbD 7 = false := by decide

/-- Settles O34: the 58 codes by computation; `alphaByte` is the table's entry by definition. -/
theorem alphabetIsTheDocuments : Obligations.AlphabetIsTheDocuments :=
  ⟨by decide +kernel, rfl, alphabet_nodup, alphabet_bit7, fun _ _ => rfl⟩

theorem alphaByte_mem {d : Nat} (h : d < 58) : alphaByte d ∈ alphabet := by
  rw [alphaByte, List.getD_eq_getElem alphabet 0 h]
  exact List.getElem_mem h

theorem alphaByte_ne_zero {d : Nat} (h : d < 58) : alphaByte d ≠ 0 :=
  fun h0 => absurd (h0 ▸ alphaByte_mem h) (by decide)

/-- No two digits have one symbol. -/
theorem alphaByte_inj {d e : Nat} (hd : d < 58) (he : e < 58) (h : alphaByte d = alphaByte e) : d = e := by
  rw [alphaByte, alphaByte, List.getD_eq_getElem alphabet 0 hd, List.getD_eq_getElem alphabet 0 he] at h
  exact (alphabet_nodup.getElem_inj_iff).1 h

/-! ## The digits (rule R190) -/

/-- The digits of the loop are Mathlib's digits to the base 58, most significant first. -/
theorem base58Digits_eq_reverse_digits (v : Nat) : base58Digits v = (Nat.digits 58 v).reverse := by
  induction v using Nat.strong_induction_on with
  | _ v ih =>
    rcases Nat.eq_zero_or_pos v with rfl | hv
    · rfl
    · rw [base58Digits_pos v hv, ih (v / 58) (by omega), Nat.digits_def' (by decide) hv, List.reverse_cons]

theorem base58Digits_lt {v d : Nat} (h : d ∈ base58Digits v) : d < 58 := by
  rw [base58Digits_eq_reverse_digits, List.mem_reverse] at h
  exact Nat.digits_lt_base (by decide) h

/-- The digit at index `i` is that of the power `58 ^ (k - 1 - i)`, for `k` digits. -/
theorem base58Digits_getElem {v i : Nat} (h : i < (base58Digits v).length) :
    (base58Digits v)[i] = v / 58 ^ ((base58Digits v).length - 1 - i) % 58 := by
  simp only [base58Digits_eq_reverse_digits, List.length_reverse, List.getElem_reverse] at h ⊢
  rw [← Nat.getD_digits v _ (by decide), List.getD_eq_getElem]

/-- The first digit of a number above 0 is not 0. -/
theorem base58Digits_head_ne_zero {v : Nat} (hv : 0 < v) (h : 0 < (base58Digits v).length) : (base58Digits v)[0] ≠ 0 := by
  simp only [base58Digits_eq_reverse_digits, List.getElem_zero, List.head_reverse]
  exact Nat.getLast_digit_ne_zero 58 hv.ne'

/-! ## The text -/

theorem b58_of_be_zero {b : Bytes} (h : be b = 0) : b58 b = [] := b58_congr (c := []) h

/-- One pass of the loop of rule R190, in characters. -/
theorem b58_concat {b c : Bytes} (hb : 0 < be b) (hc : be c = be b / 58) : b58 b = b58 c ++ [alphaByte (be b % 58)] := by
  rw [b58, base58Digits_pos _ hb, List.map_append, ← hc]
  rfl

/-- A text has at most `k` characters just when the integer is below `58 ^ k`. -/
theorem b58_length_le_iff (b : Bytes) (k : Nat) : (b58 b).length ≤ k ↔ be b < 58 ^ k := by
  rw [b58_length]
  exact ⟨fun h => lt_of_not_ge fun hv => (lt_base58Digits_length k _ hv).not_ge h, base58Digits_length_le k _⟩

theorem b58_getD {b : Bytes} {i : Nat} (h : i < (b58 b).length) :
    (b58 b).getD i 0 = alphaByte (be b / 58 ^ ((b58 b).length - 1 - i) % 58) := by
  rw [b58_length] at h ⊢
  rw [List.getD_eq_getElem (b58 b) 0 (by rwa [b58_length]), ← base58Digits_getElem h]
  exact List.getElem_map alphaByte

/-- No text begins with the symbol of 0. -/
theorem b58_getD_zero_ne {b : Bytes} (h : 0 < be b) : (b58 b).getD 0 0 ≠ 0x31 := by
  have hlen : 0 < (base58Digits (be b)).length := lt_base58Digits_length 0 _ h
  intro h1
  rw [b58_getD (by rwa [b58_length]), b58_length, ← base58Digits_getElem hlen] at h1
  exact base58Digits_head_ne_zero h hlen (alphaByte_inj (base58Digits_lt (List.getElem_mem hlen)) (by decide) h1)

/-- Settles O35: the text is empty for 0, `b58_length_le_iff` makes its length the least exponent, and its characters are the
symbols of the digits. -/
theorem base58ClosedForm : Obligations.Base58ClosedForm := by
  refine fun b => ⟨b58_of_be_zero, fun hv => ⟨(b58 b).length, rfl, ?_, ?_, ?_, ?_⟩, fun c => b58_concat⟩
  · exact (b58_length_le_iff b _).1 le_rfl
  · exact fun k' => (b58_length_le_iff b k').2
  · exact fun i => b58_getD
  · exact b58_getD_zero_ne hv

/-! ## The lengths (rule R197) -/

/-- A larger integer has no shorter text. -/
theorem b58_length_mono {b c : Bytes} (h : be b ≤ be c) : (b58 b).length ≤ (b58 c).length :=
  (b58_length_le_iff b _).2 (h.trans_lt ((b58_length_le_iff c _).1 le_rfl))

theorem be_replicate_ff (n : Nat) : be (List.replicate n 0xFF) + 1 = 256 ^ n := by
  induction n with
  | zero => rfl
  | succ n ih =>
    have hff : (0xFF : Byte).toNat = 255 := rfl
    rw [List.replicate_succ', be_concat, pow_succ, ← ih, hff]
    omega

/-- The number `m` is the least with `256 ^ n ≤ 58 ^ m`. -/
def LongestText (n m : Nat) : Prop := 256 ^ n ≤ 58 ^ m ∧ 58 ^ m < 58 * 256 ^ n

theorem b58_length_le_longest {n m : Nat} (h : LongestText n m) {b : Bytes} (hb : b.length = n) : (b58 b).length ≤ m :=
  (b58_length_le_iff b m).2 ((be_lt b).trans_le (hb ▸ h.1))

/-- Bytes of 0xFF reach the longest text: with one character fewer the integer `256 ^ n - 1` does not fit. -/
theorem b58_replicate_ff_length {n m : Nat} (h : LongestText n m) : (b58 (List.replicate n 0xFF)).length = m := by
  refine le_antisymm (b58_length_le_longest h List.length_replicate) ?_
  cases m with
  | zero => exact Nat.zero_le _
  | succ k =>
    obtain ⟨-, hlow⟩ := h
    have hfit := (b58_length_le_iff (List.replicate n 0xFF) k).1
    have hff := be_replicate_ff n
    rw [pow_succ] at hlow
    omega

/-- Settles O37: each row of the table is a `LongestText`. -/
theorem base58Lengths : Obligations.Base58Lengths := by
  refine ⟨fun nm hnm => ?_, b58_length_le, fun b c => b58_length_mono⟩
  have hrow : LongestText nm.1 nm.2 := by
    revert nm
    unfold LongestText
    decide
  exact ⟨fun b => b58_length_le_longest hrow, b58_replicate_ff_length hrow⟩

/-! ## The command B58ENC (rule R194) -/

theorem b58_ne_zero {b : Bytes} {x : Byte} (h : x ∈ b58 b) : x ≠ 0 := by
  obtain ⟨d, hd, rfl⟩ := List.mem_map.1 h
  exact alphaByte_ne_zero (base58Digits_lt hd)

/-- At a legal length the command commits the text of the input string. -/
theorem exec_b58enc_commits {s : State} (h : s.ilen.toNat ≤ 64) :
    ∃ t, exec .b58enc s = .next t ∧ CommitsOk s t (b58 (s.ibuf.toList.take s.ilen.toNat)) :=
  ⟨_, (exec_b58enc s).trans (runFree_ok b58 s h), commitOk_commits _ s (b58_length_le _ (inBytes_length_le s))⟩

theorem CommitsOk.obuf_mem {s t : State} {out : Bytes} (c : CommitsOk s t out) {i : Nat} (h : i < 88) (hi : i < t.olen.toNat) :
    t.obuf[i] ∈ out := by
  have hlen : i < out.length := c.olen ▸ hi
  rw [c.obuf i h, dif_pos hlen]
  exact List.getElem_mem hlen

theorem CommitsOk.olen_of_nil {s t : State} (c : CommitsOk s t []) : t.olen = 0 := BitVec.eq_of_toNat_eq c.olen

/-- The corner cases of rule R194 and its two vectors, computed. -/
theorem b58_examples :
    b58 [0x00, 0x00, 0x39] = asciiOf "z" ∧ b58 [0x39] = asciiOf "z" ∧ b58 [0x3A] = asciiOf "21" ∧
      b58 [0xFF] = asciiOf "5Q" ∧ b58 [0x01, 0x00] = asciiOf "5R" ∧
      b58 [0x00, 0x12, 0x34, 0x56, 0x78, 0x9A, 0xBC, 0xDE] = asciiOf "h1iJWQwqX" ∧
      b58 [0x01, 0x23, 0x45, 0x67, 0x89, 0xAB, 0xCD, 0xEF] = asciiOf "C3CPq7c8PY" := by decide +kernel

/-- Settles O17: the command is `runFree b58`; no symbol is zero, and the integer 0 has the empty text. -/
theorem b58encCommand : Obligations.B58encCommand := by
  obtain ⟨hz3, hz, h21, h5Q, h5R, hsource, hcount⟩ := b58_examples
  have hff : (b58 (List.replicate 64 0xFF)).length = 88 := b58_replicate_ff_length (by unfold LongestText; decide)
  refine ⟨rfl, fun s h => ?_, fun s h => ?_, rfl, hz3, hz, h21, h5Q, h5R, hff, hsource, hcount⟩
  · obtain ⟨t, ht, c⟩ := exec_b58enc_commits h
    refine ⟨t, ht, c, fun i h88 hi => b58_ne_zero (c.obuf_mem h88 hi), fun h0 => ?_⟩
    rw [b58_of_be_zero h0] at c
    exact c.olen_of_nil
  · rw [exec_b58enc]
    exact runFree_raises b58 h

end Sys2Proof.Machine
end

section
/-! Chain and control (spec/45_chain_and_control.md): the commands SIN, SINPK, XFER and NOP. -/

namespace Sys2Proof.Machine

/-! ## The text of a SIN (rules R198, R210) -/

/-- Every SIN text is `T`, then `e` or `f`, then 33 characters. -/
theorem sinText_eq_cons (m : Bytes) : ∃ c cs, (c = 0x65 ∨ c = 0x66) ∧ cs.length = 33 ∧ sinText m = 0x54 :: c :: cs :=
  b58_sinPayload (b := hash160 m ++ chksum (sinPayload (hash160 m)))
    (by rw [List.length_append, hash160_length, chksum_length])

theorem sinText_length (m : Bytes) : (sinText m).length = 35 := by
  obtain ⟨c, cs, -, hcs, htext⟩ := sinText_eq_cons m
  rw [htext, List.length_cons, List.length_cons, hcs]

/-- The text of a SIN from its digest and its checksum. -/
theorem sinText_of_stages {m d c : Bytes} (hd : hash160 m = d) (hc : chksum (sinPayload d) = c) :
    sinText m = b58 ([0x0F, 0x02] ++ d ++ c) := by
  rw [sinText, hd, sinAssemble_of_chksum hc]

/-- The document's end-to-end vector (rule R211), on the digest and the checksum computed for rules R161 and R176. -/
theorem sinText_vectorKey : sinText vectorKey = asciiOf "Tf8MXZi8Nf9VckDhYCoWU7rwh2E8mXTnyZi" := by
  rw [sinText_of_stages rmd160_sha256_vectorKey chksum_vectorDigest]
  decide +kernel

/-- The SIN of the key with the same X and an odd Y, rule R214's second example, computed. -/
theorem sinText_odd_vectorKey :
    sinText (0x03 :: vectorKey.tail) = asciiOf "Tf2uFmnLz2rjwrk5yZFaki3abZAja9zFAAy" := by decide +kernel

/-! ## The commands SIN and SINPK (rules R211, R214) -/

/-- Settles O19: the command is `runFree sinText`, whose first two characters are those of `sinText_eq_cons`. -/
theorem sinCommand : Obligations.SinCommand := by
  refine ⟨rfl, fun s h => ?_, fun s h => ?_, sinText_vectorKey⟩
  · obtain ⟨t, ht, hcommit, holen⟩ := runFree_commits sinText_length (by decide) h
    obtain ⟨c, cs, hc, -, htext⟩ := sinText_eq_cons (s.ibuf.toList.take s.ilen.toNat)
    refine ⟨t, _, _, _, rfl, rfl, rfl, (exec_sin s).trans ht, hcommit, holen, ?_⟩
    rw [htext] at hcommit
    have hsecond : t.obuf[1] = c := hcommit.obuf_tail (i := 0) (Nat.succ_pos _) (by decide)
    exact ⟨hcommit.obuf_head, by rwa [hsecond]⟩
  · rw [exec_sin]
    exact runFree_raises sinText h

/-- The compressed key of the whole of IBUF (rule R152). -/
theorem kcomp_ibuf (s : State) :
    kcomp (s.ibuf.toList.take 64) = (0x02 + (s.ibuf[63] &&& 1)) :: s.ibuf.toList.take 32 := by
  rw [kcomp_of_length_64 (by simp), List.take_take]
  simp

/-- Settles O20: the command is `runExact 64` of the text of the compressed key; `kcomp_append` compresses the examples' keys. -/
theorem sinpkCommand : Obligations.SinpkCommand := by
  refine ⟨rfl, fun s h => ?_, fun s h => ?_, ?_, ?_, sinText_odd_vectorKey⟩
  · obtain ⟨t, ht, hcommit, holen⟩ := runExact_commits .invalidKeyLength (f := fun p => sinText (kcomp p)) (k := 35)
      (fun p _ => sinText_length (kcomp p)) le_rfl (by decide) h
    rw [kcomp_ibuf] at hcommit
    exact ⟨t, (exec_sinpk s).trans ht, hcommit, holen⟩
  · rw [exec_sinpk]
    exact runExact_raises .invalidKeyLength _ h
  · have heven : kcomp (vectorKey.tail ++ List.replicate 32 0) = vectorKey := kcomp_append rfl rfl
    rw [heven, sinText_vectorKey]
  · rw [List.append_assoc]
    exact kcomp_append rfl rfl

/-! ## Which command leaves more than 64 bytes of output (rule R222) -/

theorem commitOk_olen_le {out : Bytes} (h : out.length ≤ 64) (s : State) : (commitOk out s).olen.toNat ≤ 64 := by
  rw [(commitOk_commits out s (by omega)).olen]
  exact h

theorem raise_olen_le (e : CmdError) (s : State) : (raise e s).olen.toNat ≤ 64 := by
  rw [raise_olen]
  decide

theorem runFree_olen_le {f : Bytes → Bytes} (hf : ∀ m, (f m).length ≤ 64) {s t : State} (h : runFree f s = .next t) :
    t.olen.toNat ≤ 64 := by
  obtain hl | hl := Nat.lt_or_ge 64 s.ilen.toNat
  · obtain rfl := Host.Outcome.next.inj ((runFree_error f s hl).symm.trans h)
    exact raise_olen_le _ s
  · obtain rfl := Host.Outcome.next.inj ((runFree_ok f s hl).symm.trans h)
    exact commitOk_olen_le (hf _) s

theorem runExact_olen_le {n : Nat} {e : CmdError} {f : Bytes → Bytes} (hn : n ≤ 64)
    (hf : ∀ m : Bytes, m.length = n → (f m).length ≤ 64) {s t : State} (h : runExact n e f s = .next t) :
    t.olen.toNat ≤ 64 := by
  obtain hl | hl := eq_or_ne s.ilen.toNat n
  · obtain rfl := Host.Outcome.next.inj ((runExact_ok n e f s hl).symm.trans h)
    exact commitOk_olen_le (hf _ ((inBytes_length s (hl.trans_le hn)).trans hl)) s
  · obtain rfl := Host.Outcome.next.inj ((runExact_error n e f s hl).symm.trans h)
    exact raise_olen_le e s

theorem xfer_olen_le {s t : State} (h : exec .xfer s = .next t) : t.olen.toNat ≤ 64 := by
  obtain ho | ho := Nat.lt_or_ge 64 s.olen.toNat
  · obtain rfl := Host.Outcome.next.inj ((exec_xfer_error s ho).symm.trans h)
    exact raise_olen_le _ s
  · obtain rfl := Host.Outcome.next.inj ((exec_xfer_ok s ho).symm.trans h)
    rwa [commitKeep_olen, moveOutput_olen]

/-- No command but B58ENC leaves an output above 64 bytes; NOP leaves the output it finds. -/
theorem olen_le_of_ne_b58enc {i : Instr} (hn : i ≠ .nop) (hb : i ≠ .b58enc) {s t : State} (h : exec i s = .next t) :
    t.olen.toNat ≤ 64 := by
  cases i with
  | nop => exact absurd rfl hn
  | b58enc => exact absurd rfl hb
  | sha256 => exact runFree_olen_le (fun m => (sha256_length m).trans_le (by decide)) h
  | rmd160 => exact runFree_olen_le (fun m => (rmd160_length m).trans_le (by decide)) h
  | hash160 => exact runFree_olen_le (fun m => (hash160_length m).trans_le (by decide)) h
  | dsha256 => exact runFree_olen_le (fun m => (dsha256_length m).trans_le (by decide)) h
  | chksum => exact runFree_olen_le (fun m => (chksum_length m).trans_le (by decide)) h
  | sin => exact runFree_olen_le (fun m => (sinText_length m).trans_le (by decide)) h
  | sinasm => exact runExact_olen_le (by decide) (fun m hm => by rw [sinAssemble_length, hm]; decide) h
  | kcomp => exact runExact_olen_le le_rfl (fun m hm => by rw [kcomp_length, hm]; decide) h
  | sinpk => exact runExact_olen_le le_rfl (fun m _ => (sinText_length (kcomp m)).trans_le (by decide)) h
  | xfer => exact xfer_olen_le h

/-! ## The command XFER (rule R222) -/

theorem moveOutput_commitsKeep (s : State) : CommitsKeep s (commitKeep (moveOutput s)) where
  obuf := (commitKeep_obuf _).trans (moveOutput_obuf s)
  olen := (commitKeep_olen _).trans (moveOutput_olen s)
  busy := commitKeep_busy _
  done := commitKeep_done _
  err := (commitKeep_err _).trans (moveOutput_err s)
  ecode := (commitKeep_ecode _).trans (moveOutput_ecode s)
  controls := moveOutput_keepsControls s

/-- A command other than NOP and XFER leaves the same state whatever the output before it. -/
theorem exec_with_output {i : Instr} (hn : i ≠ .nop) (hx : i ≠ .xfer) {s t : State} (h : exec i s = .next t)
    (o : Vector Byte 88) (n : BitVec 8) : exec i { s with obuf := o, olen := n } = .next t := by
  obtain ⟨f, e, hf⟩ := exec_of_input hn hx
  have hok : LengthOk i s ↔ LengthOk i { s with obuf := o, olen := n } := lengthOk_congr hx rfl
  rw [← h]
  obtain ⟨hl, hs⟩ | ⟨hl, hs⟩ := hf s <;> obtain ⟨hl', hs'⟩ | ⟨hl', hs'⟩ := hf { s with obuf := o, olen := n }
  · exact hs'.trans hs.symm
  · exact absurd (hok.1 hl) hl'
  · exact absurd (hok.2 hl') hl
  · exact hs'.trans hs.symm

/-- Settles O21: the two sides of the length check, the bound on every other command's output, and `exec_with_output`. -/
theorem xferCommand : Obligations.XferCommand := by
  refine ⟨rfl, fun s h => ?_, fun s h => ?_, fun i s t hn h hlong => ?_, fun i s t hx h => ?_⟩
  · exact ⟨_, exec_xfer_ok s h, moveOutput_commitsKeep s, moveOutput_ilen s, moveOutput_ibuf_getElem s⟩
  · exact ⟨_, exec_xfer_error s h, raise_commits .invalidLength s⟩
  · by_contra hb
    exact absurd (olen_le_of_ne_b58enc hn hb h) (by omega)
  · obtain ⟨-, -, hin, -, -⟩ := everyCommandFrame i s t h
    refine ⟨(hin hx).1, (hin hx).2, fun o n => ?_⟩
    obtain rfl | hn := eq_or_ne i .nop
    · obtain rfl := Host.Outcome.next.inj ((exec_nop s).symm.trans h)
      exact ⟨_, exec_nop _, rfl, rfl, rfl, rfl, rfl, absurd rfl⟩
    · exact ⟨t, exec_with_output hn hx h o n, rfl, rfl, rfl, rfl, rfl, fun _ => ⟨rfl, rfl⟩⟩

/-! ## The command NOP (rule R220) -/

theorem irq_of_done {s : State} (hdone : s.done = true) (hdie : s.die = true) : irq s = true :=
  (interruptLineIsALevel s).2 (.inl ⟨hdone, hdie⟩)

/-- An accepted word is pending, whatever it is (rule R39). -/
theorem busWrite_cmd_idle {s : State} (w : Word) (hb : s.busy = false) (he : s.err = false) :
    busWrite .word 0x10 w s = { s with cmdw := w, busy := true, done := false } :=
  (busWrite_offset .cmd w s).trans (accept_idle w hb he)

/-- With no error and no dropped write STATUS reads as BUSY and DONE alone (rule R28). -/
theorem statusWord_done {s : State} (hb : s.busy = false) (hdone : s.done = true) (herr : s.err = false)
    (hecode : s.ecode = 0) (hdrop : s.drop = false) : statusWord s = 0x00000002 := by
  rw [statusWord, hb, hdone, herr, hecode, hdrop]
  rfl

/-- Settles O10: the command is `commitKeep`; an accepted NOP is a busy state with its word, which the engine's turn executes. -/
theorem nopCommand : Obligations.NopCommand := by
  refine ⟨rfl, fun s => ?_, fun s herr => ?_, fun s hb herr hecode hdrop => ?_⟩
  · exact ⟨_, exec_nop s, commitKeep_commits s, rfl, rfl, irq_of_done (commitKeep_done s)⟩
  · exact (busWrite_offset .cmd _ s).trans (accept_dropped _ (.inr herr))
  · rw [busWrite_cmd_idle _ hb herr]
    refine ⟨rfl, _, (engineTurn_busy _ rfl).trans (complete_ok _ .nop (decode_encode .nop)), rfl, rfl, ?_⟩
    exact (busRead_offset .status _).trans (congrArg _ (statusWord_done rfl rfl herr hecode hdrop))

end Sys2Proof.Machine
end

section
/-! Errors (spec/60_exceptions.md): the failed completion, an illegal command word, what ends the error state and what leaves the
error record alone. -/

namespace Sys2Proof.Machine

/-! ## Taking an error (rules R231, R236) -/

theorem irq_of_err {s : State} (herr : s.err = true) (heie : s.eie = true) : irq s = true :=
  (interruptLineIsALevel s).2 (.inr ⟨herr, heie⟩)

/-- Settles O25: `raise` meets the relation of rule R236, and ERR = 1 with EIE = 1 holds the interrupt line high. -/
theorem failedCompletionClearsOutput : Obligations.FailedCompletionClearsOutput :=
  fun e s => ⟨raise_commits e s, fun h => irq_of_err (raise_err e s) ((raise_eie e s).trans h)⟩

/-- Settles O5: the completion of an illegal word is `raise` with code 5; the accept does not look at the word. -/
theorem illegalCommandWordRaises : Obligations.IllegalCommandWordRaises := by
  refine ⟨fun s hb hw => ?_, fun s w hb he _ => busWrite_cmd_idle w hb he⟩
  exact ⟨_, engineTurn_illegal hb ((commandWordLegal_eq_false_iff _).2 hw), raise_commits .illegalCommand s⟩

/-! ## The end of the error state (rule R240) -/

theorem busWrite_status (w : Word) (s : State) : busWrite .word 0x0C w s = acknowledge w s :=
  busWrite_offset .status w s

/-- Settles O53: the acknowledge clears ERR, so with BUSY = 0 the next command word is accepted; a soft reset is `resetBlock`. -/
theorem acknowledgeEndsTheErrorState : Obligations.AcknowledgeEndsTheErrorState := by
  refine ⟨fun s w hw => ⟨_, busWrite_status w s, ?_⟩, fun s w hw => busWrite_reset s hw ▸ resetBlock_atReset s⟩
  obtain ⟨herr, hecode⟩ := acknowledge_error hw s
  refine ⟨herr, hecode, rfl, rfl, rfl, rfl, fun hb c => ?_⟩
  rw [busWrite_cmd_idle (s := acknowledge w s) c hb herr]
  exact ⟨rfl, rfl⟩

/-! ## The error record outlives every other turn (rule R241) -/

/-- An accepted access to a register of the map is a 32-bit one at that register's offset. -/
theorem access_of_regAt {size : AccessSize} {off : BitVec 8} {r : Reg} (hacc : accepted size off = true) (hr : regAt off = r)
    (hne : r ≠ .reserved) : size = .word ∧ off = r.offset := by
  obtain ⟨hsize, hal⟩ := (accepted_iff size off).1 hacc
  subst hr
  exact ⟨hsize, (offset_regAt hal hne).symm⟩

/-- An accepted write to STATUS that is no acknowledge of an error has bit 2 clear. -/
theorem bit2_of_not_errorAcknowledge {size : AccessSize} {off : BitVec 8} {w : Word} (hacc : accepted size off = true)
    (h : ¬ IsErrorAcknowledge (.busWrite size off w)) (hr : regAt off = .status) : w.getLsbD 2 = false := by
  obtain ⟨rfl, rfl⟩ := access_of_regAt hacc hr nofun
  exact Bool.eq_false_iff.2 fun hw => h ⟨w, hw, rfl⟩

/-- A write keeps ERR and ECODE unless it has bit 31 set and goes to CTRL, or bit 2 set and goes to STATUS. -/
theorem writeReg_error_kept {r : Reg} {w : Word} (s : State) (hctrl : r = .ctrl → w.getLsbD 31 = false)
    (hstatus : r = .status → w.getLsbD 2 = false) : (writeReg r w s).err = s.err ∧ (writeReg r w s).ecode = s.ecode := by
  obtain ht | ht | ⟨rfl, -⟩ | ⟨-, ht⟩ | ⟨rfl, ht⟩ | ⟨-, -, -, ht⟩ | ⟨-, -, ht⟩ | ⟨j, -, -, ht⟩ := writeReg_cases r w s
  · exact ⟨congrArg State.err ht, congrArg State.ecode ht⟩
  · exact ht ▸ ⟨rfl, rfl⟩
  · have hw : writeReg .ctrl w s = { s with die := w.getLsbD 0, eie := w.getLsbD 1 } := writeCtrl_enables s (hctrl rfl)
    exact hw ▸ ⟨rfl, rfl⟩
  · exact ht ▸ ⟨rfl, rfl⟩
  · exact ht ▸ acknowledge_error_kept (hstatus rfl) s
  · exact ht ▸ ⟨rfl, rfl⟩
  · exact ht ▸ ⟨rfl, rfl⟩
  · exact ht ▸ ⟨rfl, rfl⟩

/-- A turn of the host that neither acknowledges an error nor resets keeps ERR and ECODE. -/
theorem hostTurn_error_kept {a : HostAction} (s : State) (hack : ¬ IsErrorAcknowledge a) (hreset : ¬ IsReset a) :
    (hostTurn a s).err = s.err ∧ (hostTurn a s).ecode = s.ecode := by
  cases a with
  | busRead size off => exact ⟨rfl, rfl⟩
  | busWrite size off w =>
    change (busWrite size off w s).err = s.err ∧ (busWrite size off w s).ecode = s.ecode
    obtain ⟨hacc, ht⟩ | ⟨-, ht⟩ := busWrite_cases size off w s <;> rw [ht]
    · exact writeReg_error_kept s (bit31_of_not_reset hacc hreset) (bit2_of_not_errorAcknowledge hacc hack)
    · exact ⟨rfl, rfl⟩
  | hardReset => exact absurd (.inl rfl) hreset

/-- In the error state no command is running (rule R46 a), so the engine has no step. -/
theorem Inv.idle_of_err {s : State} (h : Inv s) (he : s.err = true) : s.busy = false := by
  by_contra hb
  obtain ⟨-, hne⟩ := h.busy_flags (Bool.eq_true_of_not_eq_false hb)
  exact absurd he (Bool.eq_false_iff.1 hne)

/-- Settles O54: the host's turns by `hostTurn_error_kept`; the engine has none, since BUSY = 0, and for the same reason the
writes to IBUF and ILEN have their effect. -/
theorem errorRecordIsKeptUntilAcknowledged : Obligations.ErrorRecordIsKeptUntilAcknowledged := by
  refine ⟨fun s w he => (busWrite_offset .cmd w s).trans (accept_dropped w (.inr he)), fun s t u h he ht => ?_,
    fun s w h he => ?_⟩
  · cases u with
    | engine =>
      obtain rfl := Host.Outcome.next.inj ((engineTurn_idle s (h.idle_of_err he)).symm.trans ht)
      exact .inl ⟨he, rfl⟩
    | host a =>
      obtain rfl := Host.Outcome.next.inj ht
      by_cases hend : IsErrorAcknowledge a ∨ IsReset a
      · exact .inr ⟨a, rfl, hend⟩
      · obtain ⟨hack, hreset⟩ := not_or.1 hend
        obtain ⟨herr, hecode⟩ := hostTurn_error_kept s hack hreset
        exact .inl ⟨herr.trans he, hecode⟩
  · have hb := h.idle_of_err he
    refine ⟨(busWrite_offset .ilen w s).trans (writeIlen_idle w hb), fun j i hi => ?_,
      fun hw => (busWrite_offset .ctrl w s).trans (writeCtrl_enables s hw), fun hw => ?_, fun hw => ?_⟩
    · obtain ⟨-, hibuf, -⟩ := ibufRegisters
      obtain ⟨t, rfl, -, hlanes, -⟩ := hibuf s j w hb
      exact hlanes i hi
    · rw [busWrite_status]
      exact (acknowledge_error hw s).1
    · rw [busWrite_status, acknowledge_drop, hw, Bool.not_true, Bool.and_false]

end Sys2Proof.Machine
end

section
/-! Reset and progress (spec/70_reset_and_hazards.md): the state after a reset has the invariants, a soft reset is a hardware
reset, a pending command ends. -/

namespace Sys2Proof.Machine

/-! ## Reset (rules R46, R262) -/

/-- Settles O8: the reset values of rule R47 meet the invariants. -/
theorem resetMeetsInvariants : Obligations.ResetMeetsInvariants := inv_of_atReset reset_atReset

/-- The SRST bit stores nothing: CTRL reads as zero after a reset (rule R262). -/
theorem ctrlWord_resetBlock (s : State) : ctrlWord (resetBlock s) = 0 := by
  rw [ctrlWord, resetBlock_eie, resetBlock_die]
  rfl

/-- Every register but CTRL and STATUS either ignores writes or drops them while BUSY = 1. -/
theorem ignoresWrites_or_droppedWhileBusy {r : Reg} (hctrl : r ≠ .ctrl) (hstatus : r ≠ .status) :
    IgnoresWrites r ∨ DroppedWhileBusy r := by
  cases r with
  | ctrl => exact absurd rfl hctrl
  | status => exact absurd rfl hstatus
  | cmd | ilen | ibuf j => exact .inr (by simp [DroppedWhileBusy])
  | id | cap | olen | obuf j | reserved => exact .inl (by simp [IgnoresWrites])

/-- An accepted access at another offset than a register's does not reach that register. -/
theorem regAt_ne_of_ne_offset {size : AccessSize} {off : BitVec 8} {r : Reg} (hacc : accepted size off = true)
    (hne : r ≠ .reserved) (ho : off ≠ r.offset) : regAt off ≠ r := fun hr =>
  ho (access_of_regAt hacc hr hne).2

/-- Settles O56: both resets are `resetBlock`; a host step that is no reset lets a running command run, by `HostFrame`; the
other registers ignore the write or drop it. -/
theorem softResetEqualsHardReset : Obligations.SoftResetEqualsHardReset := by
  refine ⟨fun s w hw => ?_, fun s a hb hidle => ?_, fun s size off w hb hctrl hstatus => ?_⟩
  · rw [busWrite_reset s hw]
    exact ⟨rfl, busWriteReply_offset .ctrl, (busRead_offset .ctrl _).trans (congrArg _ (ctrlWord_resetBlock s))⟩
  · by_contra hreset
    have hrunning := ((hostFrame_hostTurn a s hreset).running hb).1
    rw [hidle] at hrunning
    cases hrunning
  · obtain ⟨hacc, ht⟩ | ⟨-, ht⟩ := busWrite_cases size off w s <;> rw [ht]
    · have hr := ignoresWrites_or_droppedWhileBusy (regAt_ne_of_ne_offset hacc nofun hctrl)
        (regAt_ne_of_ne_offset hacc nofun hstatus)
      exact hr.imp (writeReg_ignored · w s) (writeReg_busy · hb w)
    · exact .inl rfl

/-! ## A pending command ends (rule R275) -/

theorem writeReg_agenda (r : Reg) (w : Word) (s : State) : (writeReg r w s).agenda = s.agenda := by
  obtain h | h | ⟨-, h⟩ | ⟨-, h⟩ | ⟨-, h⟩ | ⟨-, -, -, h⟩ | ⟨-, -, h⟩ | ⟨j, -, -, h⟩ := writeReg_cases r w s
  all_goals rw [h] <;> rfl

/-- A turn of the host leaves the turns to come alone (log entry 1). -/
theorem hostTurn_agenda (a : HostAction) (s : State) : (hostTurn a s).agenda = s.agenda := by
  cases a with
  | busRead size off => rfl
  | busWrite size off w =>
    change (busWrite size off w s).agenda = s.agenda
    obtain ⟨-, ht⟩ | ⟨-, ht⟩ := busWrite_cases size off w s <;> rw [ht]
    exact writeReg_agenda _ w s
  | hardReset => rfl

/-- A step of the engine alone is a run that ends with BUSY = 0. -/
theorem core_run_engine_idle {s u : State} (h : step s = engineTurn u) :
    ∃ t, Host.Core.run Sys2Proof.core 1 s = .next t ∧ t.busy = false :=
  ⟨engineStep u, core_run_succ Sys2Proof.core 0 s _ (h.trans (engineTurn_eq u)), engineStep_busy u⟩

/-- Along an agenda the host's turns are used up one by one, until the engine has its turn in it or behind it. -/
theorem core_run_reaches_idle (ts : List Turn) (s : State) (h : s.agenda = ts) :
    ∃ k t, k ≤ ts.length + 1 ∧ Host.Core.run Sys2Proof.core k s = .next t ∧ t.busy = false := by
  induction ts generalizing s with
  | nil => exact ⟨1, (core_run_engine_idle (step_nil s h)).imp fun t ht => ⟨by simp, ht⟩⟩
  | cons x ts ih =>
    cases x with
    | engine => exact ⟨1, (core_run_engine_idle (step_engine s ts h)).imp fun t ht => ⟨by simp, ht⟩⟩
    | host a =>
      obtain ⟨k, t, hk, hrun, hidle⟩ := ih (hostTurn a { s with agenda := ts }) (hostTurn_agenda a _)
      refine ⟨k + 1, t, by rw [List.length_cons]; omega, ?_, hidle⟩
      exact (core_run_succ Sys2Proof.core k s _ (step_host s a ts h)).trans hrun

/-- `RUN` from an idle block without error ends in the next state of its command, with the last poll's word on the bus (rules
R39, R111). -/
theorem run_state {r : ScriptRun} {i : Instr} {t : State} (hb : r.state.busy = false) (he : r.state.err = false)
    (h : exec i { r.state with cmdw := encode i, busy := true, done := false } = .next t) :
    ((Stmt.run i).execute r).state = { t with reply := some (.data (statusWord t)) } := by
  have hready : r.ready.state = r.state := ScriptRun.ready_state_idle r hb
  have hcmd := cmd_state (r := r) i (by rw [hready, hb]) (by rw [hready, he])
  have hstep : engineStep { r.state with cmdw := encode i, busy := true, done := false } = t :=
    engineStep_exec _ t i rfl (decode_encode i) h
  change ((Stmt.cmd i).execute r).wait.state = _
  rw [ScriptRun.wait_state, hcmd, hready,
    engineStep_reply { r.state with cmdw := encode i, busy := true, done := false } (some .okay), hstep]
  rfl

/-- Settles O57: the agenda by `core_run_reaches_idle`, `WAIT` by its loop, `RUN` by `run_state`. -/
theorem pendingCommandEnds : Obligations.PendingCommandEnds := by
  refine ⟨fun s _ => core_run_reaches_idle s.agenda s rfl, ScriptRun.wait_state_busy, fun r i hb he => ?_⟩
  obtain ⟨t, ht⟩ := exec_next i { r.state with cmdw := encode i, busy := true, done := false }
  exact ⟨t, ht, run_state hb he ht⟩

end Sys2Proof.Machine
end
